-- ==== Sys2Proof/Word.lean ====
section
/-! DEFINITION. The datum the two blocks move, one 8-bit byte (00_scope.md R9, R11), the 32-bit value of a
frequency (R13), and the frame value, a pair of a command and a payload (R15, 00_scope.md glossary). -/

namespace Sys2Proof

/-- One 8-bit byte, bit 7 most significant (R9, R11). -/
abbrev Byte := BitVec 8

/-- A 32-bit value, the only multi-byte operand of the protocol (R57). -/
abbrev Word32 := BitVec 32

/-- A frame value `(c, p)`: a command byte and a payload (R15). The length is `|p|`, not a component of its own (R141). -/
structure Frame where
  command : Byte
  payload : List Byte
  deriving DecidableEq, Repr

end Sys2Proof
end

