-- ==== Sys2Proof/Config.lean ====
section
/-! DEFINITION. What is fixed for the hardware (00_scope.md R5 to R10, 93_implementation_defined.md U1) and the
values the spec leaves open, each a constant with no body. -/

namespace Sys2Proof.Config

/-- `PREAMBLE`, the four bytes that mark the start of every frame (R5). -/
def preamble : List Byte := [0x71, 0xFE, 0x39, 0x1D]

/-- `MAX_LEN`, the largest payload length of a frame (R6). -/
def maxLen : Nat := 255

/-- `BUF_CAP`, the number of cells of `RXBUF` and of `TXBUF` (R7). -/
def bufCap : Nat := 255

/-- The configuration record: what is chosen when a block is built and never changes (00_scope.md, its section 4). -/
structure Parameters where
  /-- `RESYNC_RETEST` (R8): `false` discards a mismatching byte (R122), `true` re-tests it as a new start (R124). -/
  resyncRetest : Bool
  deriving DecidableEq, Repr

/-- The default of every parameter (R8). -/
def standard : Parameters := { resyncRetest := false }

/-! ### The command ids of the source's table (R87) -/

def idSetFrequency : Byte := 1
def idSetMode : Byte := 2
def idFlushTxBuffer : Byte := 3
def idWriteTxData : Byte := 4
def idWatchdogRequest : Byte := 5
def idGetReceiveData : Byte := 7
def idGreenLedControl : Byte := 8
def idSetTxPower : Byte := 9
def idDebug : Byte := 10
def idSetSeed : Byte := 17
def idGetVersion : Byte := 18
def idSetTxBuffer : Byte := 19

/-- The longest buffer `transmit` accepts (R171). -/
def transmitMax : Nat := 245

/-- The highest level `setTxPower` accepts (R167). -/
def powerMax : Nat := 9

/-! ### Parameters of the environment (R10): no rule of a block reads one -/

/-- `WATCHDOG_EVERY`, the source's "every 10th tick" (R10, R174). -/
def watchdogEvery : Nat := 10

/-- `DEFAULT_MODE`, which the source gives no number (R10, U5). -/
opaque defaultMode : Byte

/-- `KEEPALIVE_INTERVAL` (R10, U14). -/
opaque keepaliveInterval : Nat

/-- `RX_CHUNK_MAX` (R10, U14). -/
opaque rxChunkMax : Nat

/-- `BAUD` (R10, U14). -/
opaque baud : Nat

/-! ### Free values -/

/-- What `rxbuf_rdata` shows for an absent cell or index 255: any byte, a fresh draw at each use, so a function of the
draw number and of the index (R26, R37, R51, U8, U9). -/
opaque freeRxbufData : Nat → Byte → Byte

/-- What `tx_data` shows while it has no value: while no byte is on offer, any byte, a fresh draw at each use (R38, U10); and, by the
model's choice, also while `tx_valid = 1` in `PAY` over an absent `TXBUF` cell, where the spec gives only the fault of the emit
(DESIGN CHOICE, log entry 6). -/
opaque freeTxData : Nat → Byte

/-- What `emit` would take from an absent `RXBUF` cell: no reachable state asks for it (R131). -/
opaque freeEmitData : Nat → Byte

end Sys2Proof.Config
end

