-- ==== Sys2Proof/Syntax.lean ====
section
/-! DEFINITION. The instructions: the command frames, one constructor per row of spec/opcode_table.json
(30_encoding.md R87, R93; 42_command_frames.md R150 to R162). -/

namespace Sys2Proof

/-- A frame as the host sends it to the modem. Each operand is what its rule names. -/
inductive Instr where
  /-- Command 1, two independent 32-bit fields in hertz (R150). -/
  | setFrequency (rx tx : Word32)
  /-- Command 2, one mode code (R151). -/
  | setMode (mode : Byte)
  /-- Command 3, no payload (R152). -/
  | flushTxBuffer
  /-- Command 4, the data copied unchanged (R153). -/
  | writeTxData (data : List Byte)
  /-- Command 5, no payload (R154). -/
  | watchdogRequest
  /-- Command 7, no payload (R155). -/
  | getReceiveData
  /-- Command 8, one byte whose meaning the source does not give (R156, U4). -/
  | greenLedControl (value : Byte)
  /-- Command 9, one power level (R157). -/
  | setTxPower (level : Byte)
  /-- Command 10, any payload (R158, U3). -/
  | debug (payload : List Byte)
  /-- Command 17, any payload (R159, U3). -/
  | setSeed (payload : List Byte)
  /-- Command 18, no payload (R160). -/
  | getVersion
  /-- Command 19, any payload (R161, U3). -/
  | setTxBuffer (payload : List Byte)
  /-- The generic frame: a header that no command row selects (R93, R162). -/
  | frameAny (command : Byte) (payload : List Byte)
  deriving DecidableEq, Repr

end Sys2Proof
end

