-- ==== Sys2Proof/WellFormed.lean ====
section
/-! DEFINITION. Which terms of `Instr` are frames: the length byte must be able to hold the payload's size
(R83, R101), and `frameAny` stands only for a header that no command row selects (R93). Apart from it,
`Instr.conforming`, the payload column of the command table that the blocks do not check (R87, R89). -/

namespace Sys2Proof

/-- Some command row of the table selects a header with this command and this length byte (R93). -/
def commandRowSelects (c : Byte) (n : Nat) : Bool :=
  (c == Config.idSetFrequency && n == 8) || (c == Config.idSetMode && n == 1) ||
  (c == Config.idFlushTxBuffer && n == 0) || c == Config.idWriteTxData ||
  (c == Config.idWatchdogRequest && n == 0) || (c == Config.idGetReceiveData && n == 0) ||
  (c == Config.idGreenLedControl && n == 1) || (c == Config.idSetTxPower && n == 1) ||
  c == Config.idDebug || c == Config.idSetSeed ||
  (c == Config.idGetVersion && n == 0) || c == Config.idSetTxBuffer

/-- The check a term passes to be an instruction of the table. -/
def Instr.wellFormed : Instr → Bool
  | .setFrequency _ _ => true
  | .setMode _ => true
  | .flushTxBuffer => true
  | .writeTxData data => decide (data.length ≤ Config.maxLen)
  | .watchdogRequest => true
  | .getReceiveData => true
  | .greenLedControl _ => true
  | .setTxPower _ => true
  | .debug payload => decide (payload.length ≤ Config.maxLen)
  | .setSeed payload => decide (payload.length ≤ Config.maxLen)
  | .getVersion => true
  | .setTxBuffer payload => decide (payload.length ≤ Config.maxLen)
  | .frameAny command payload =>
    decide (payload.length ≤ Config.maxLen) && !commandRowSelects command payload.length

/-- `wellFormed` as a proposition. -/
abbrev Instr.WellFormed (i : Instr) : Prop := i.wellFormed = true

/-- The frame is one the payload column of the command table describes: `length_range` of command 4, the level range of
command 9, and no generic frame (R87, R93, R153, R157). Neither block checks it (R89). -/
def Instr.conforming : Instr → Bool
  | .setFrequency _ _ => true
  | .setMode _ => true
  | .flushTxBuffer => true
  | .writeTxData data => decide (1 ≤ data.length) && decide (data.length ≤ Config.transmitMax)
  | .watchdogRequest => true
  | .getReceiveData => true
  | .greenLedControl _ => true
  | .setTxPower level => decide (level.toNat ≤ Config.powerMax)
  | .debug payload => decide (payload.length ≤ Config.maxLen)
  | .setSeed payload => decide (payload.length ≤ Config.maxLen)
  | .getVersion => true
  | .setTxBuffer payload => decide (payload.length ≤ Config.maxLen)
  | .frameAny _ _ => false

end Sys2Proof
end

