-- ==== Sys2Proof/Decode.lean ====
section
/-! DEFINITION. The codec of the frame format (30_encoding.md R80 to R94): the layout of each command's payload,
`le32`, the decoder from bytes to instructions, total and rejecting by name, and the encoder; then the same
decoder on a word numbered as spec/opcode_table.json numbers it (R81). -/

namespace Sys2Proof

/-! ### Operands that are more than one byte -/

/-- `le32(v)`, least significant byte first (R13). -/
def le32 (v : Word32) : List Byte :=
  [v.extractLsb' 0 8, v.extractLsb' 8 8, v.extractLsb' 16 8, v.extractLsb' 24 8]

/-- The 32-bit value whose `le32` is these four bytes (R13). -/
def ofLe32 (b0 b1 b2 b3 : Byte) : Word32 :=
  BitVec.ofNat 32 (b0.toNat + 2 ^ 8 * b1.toNat + 2 ^ 16 * b2.toNat + 2 ^ 24 * b3.toNat)

/-! ### The frame of an instruction -/

/-- The command byte (R87, R150 to R162). -/
def Instr.command : Instr → Byte
  | .setFrequency _ _ => Config.idSetFrequency
  | .setMode _ => Config.idSetMode
  | .flushTxBuffer => Config.idFlushTxBuffer
  | .writeTxData _ => Config.idWriteTxData
  | .watchdogRequest => Config.idWatchdogRequest
  | .getReceiveData => Config.idGetReceiveData
  | .greenLedControl _ => Config.idGreenLedControl
  | .setTxPower _ => Config.idSetTxPower
  | .debug _ => Config.idDebug
  | .setSeed _ => Config.idSetSeed
  | .getVersion => Config.idGetVersion
  | .setTxBuffer _ => Config.idSetTxBuffer
  | .frameAny command _ => command

/-- The payload layout (R85, R87, R150 to R162). -/
def Instr.payload : Instr → List Byte
  | .setFrequency rx tx => le32 rx ++ le32 tx
  | .setMode mode => [mode]
  | .flushTxBuffer => []
  | .writeTxData data => data
  | .watchdogRequest => []
  | .getReceiveData => []
  | .greenLedControl value => [value]
  | .setTxPower level => [level]
  | .debug payload => payload
  | .setSeed payload => payload
  | .getVersion => []
  | .setTxBuffer payload => payload
  | .frameAny _ payload => payload

/-- The frame value an instruction stands for. -/
def Instr.frame (i : Instr) : Frame := ⟨i.command, i.payload⟩

/-! ### Decoding -/

/-- Why a byte sequence is not the encoding of one frame. -/
inductive DecodeError where
  /-- Fewer than the six header bytes. -/
  | truncatedHeader
  /-- The first four bytes are not the preamble. -/
  | badPreamble
  /-- Fewer payload bytes than the length byte says. -/
  | truncatedPayload
  /-- Bytes stand after the frame's end at wire offset `5 + length`. -/
  | trailingBytes
  deriving DecidableEq, Repr

/-- The frame at the front of a byte sequence and the bytes after it: its end is fixed by the length byte alone
(R80, R86). -/
def splitFrame : List Byte → Except DecodeError (Frame × List Byte)
  | p0 :: p1 :: p2 :: p3 :: c :: n :: rest =>
    if [p0, p1, p2, p3] = Config.preamble then
      if n.toNat ≤ rest.length then .ok (⟨c, rest.take n.toNat⟩, rest.drop n.toNat)
      else .error .truncatedPayload
    else .error .badPreamble
  | _ => .error .truncatedHeader

/-- A row whose payload is empty; any other size is the generic row's. -/
def emptyRow (i : Instr) (c : Byte) : List Byte → Instr
  | [] => i
  | p => .frameAny c p

/-- A row whose payload is one byte. -/
def oneByteRow (i : Byte → Instr) (c : Byte) : List Byte → Instr
  | [b] => i b
  | p => .frameAny c p

/-- A row whose payload is two `le32` values. -/
def twoWordRow (i : Word32 → Word32 → Instr) (c : Byte) : List Byte → Instr
  | [a0, a1, a2, a3, b0, b1, b2, b3] => i (ofLe32 a0 a1 a2 a3) (ofLe32 b0 b1 b2 b3)
  | p => .frameAny c p

/-- The row of the table that a frame belongs to: a command row when its header selects one, the generic row otherwise
(R93). Rows with a fixed size are told by their payload's shape. -/
def instrOfFrame (f : Frame) : Instr :=
  if f.command = Config.idSetFrequency then twoWordRow .setFrequency f.command f.payload
  else if f.command = Config.idSetMode then oneByteRow .setMode f.command f.payload
  else if f.command = Config.idFlushTxBuffer then emptyRow .flushTxBuffer f.command f.payload
  else if f.command = Config.idWriteTxData then .writeTxData f.payload
  else if f.command = Config.idWatchdogRequest then emptyRow .watchdogRequest f.command f.payload
  else if f.command = Config.idGetReceiveData then emptyRow .getReceiveData f.command f.payload
  else if f.command = Config.idGreenLedControl then oneByteRow .greenLedControl f.command f.payload
  else if f.command = Config.idSetTxPower then oneByteRow .setTxPower f.command f.payload
  else if f.command = Config.idDebug then .debug f.payload
  else if f.command = Config.idSetSeed then .setSeed f.payload
  else if f.command = Config.idGetVersion then emptyRow .getVersion f.command f.payload
  else if f.command = Config.idSetTxBuffer then .setTxBuffer f.payload
  else .frameAny f.command f.payload

/-- The instruction at the front of a byte sequence, and the rest. -/
def decodeFront (bs : List Byte) : Except DecodeError (Instr × List Byte) :=
  match splitFrame bs with
  | .ok (f, rest) => .ok (instrOfFrame f, rest)
  | .error e => .error e

/-- The instruction a byte sequence is the whole encoding of. -/
def decode (bs : List Byte) : Except DecodeError Instr :=
  match decodeFront bs with
  | .ok (i, []) => .ok i
  | .ok (_, _ :: _) => .error .trailingBytes
  | .error e => .error e

/-! ### Encoding -/

/-- The bytes of `ENCODE(c, p)` for `|p| ≤ 255`: preamble, command, length, payload (R80, R100). -/
def frameBytes (c : Byte) (p : List Byte) : List Byte :=
  Config.preamble ++ [c] ++ [BitVec.ofNat 8 p.length] ++ p

/-- The bytes of an instruction on the wire. -/
def encode (i : Instr) : List Byte := frameBytes i.command i.payload

/-! ### The opcode table's own numbering -/

/-- The header as one 48-bit value, the first byte on the wire most significant (R81). -/
def header (c n : Byte) : BitVec 48 := (0x71FE391D : BitVec 32) ++ c ++ n

/-- One row of spec/opcode_table.json: a header `H` selects it when `H &&& mask = bits` (R93). -/
structure OpcodeRow where
  mnemonic : String
  bits : BitVec 48
  mask : BitVec 48
  deriving DecidableEq, Repr

/-- The table, its generic row last because it has the lowest priority (R93). -/
def opcodeTable : List OpcodeRow :=
  [⟨"SET_FREQUENCY", 0x71FE391D0108, 0xFFFFFFFFFFFF⟩,
   ⟨"SET_MODE", 0x71FE391D0201, 0xFFFFFFFFFFFF⟩,
   ⟨"FLUSH_TX_BUFFER", 0x71FE391D0300, 0xFFFFFFFFFFFF⟩,
   ⟨"WRITE_TX_DATA", 0x71FE391D0400, 0xFFFFFFFFFF00⟩,
   ⟨"WATCHDOG_REQUEST", 0x71FE391D0500, 0xFFFFFFFFFFFF⟩,
   ⟨"GET_RECEIVE_DATA", 0x71FE391D0700, 0xFFFFFFFFFFFF⟩,
   ⟨"GREEN_LED_CONTROL", 0x71FE391D0801, 0xFFFFFFFFFFFF⟩,
   ⟨"SET_TX_POWER", 0x71FE391D0901, 0xFFFFFFFFFFFF⟩,
   ⟨"DEBUG", 0x71FE391D0A00, 0xFFFFFFFFFF00⟩,
   ⟨"SET_SEED", 0x71FE391D1100, 0xFFFFFFFFFF00⟩,
   ⟨"GET_VERSION", 0x71FE391D1200, 0xFFFFFFFFFFFF⟩,
   ⟨"SET_TX_BUFFER", 0x71FE391D1300, 0xFFFFFFFFFF00⟩,
   ⟨"FRAME_ANY", 0x71FE391D0000, 0xFFFFFFFF0000⟩]

/-- The mnemonic of the first row a header selects (R93). -/
def rowOfHeader (h : BitVec 48) : Option String :=
  (opcodeTable.find? fun r => h &&& r.mask == r.bits).map OpcodeRow.mnemonic

/-- The mnemonic of an instruction's row. -/
def Instr.mnemonic : Instr → String
  | .setFrequency _ _ => "SET_FREQUENCY"
  | .setMode _ => "SET_MODE"
  | .flushTxBuffer => "FLUSH_TX_BUFFER"
  | .writeTxData _ => "WRITE_TX_DATA"
  | .watchdogRequest => "WATCHDOG_REQUEST"
  | .getReceiveData => "GET_RECEIVE_DATA"
  | .greenLedControl _ => "GREEN_LED_CONTROL"
  | .setTxPower _ => "SET_TX_POWER"
  | .debug _ => "DEBUG"
  | .setSeed _ => "SET_SEED"
  | .getVersion => "GET_VERSION"
  | .setTxBuffer _ => "SET_TX_BUFFER"
  | .frameAny _ _ => "FRAME_ANY"

/-- The low `k` bytes of `w`, the most significant of them first (R81). -/
def bigEndianBytes : Nat → Nat → List Byte
  | 0, _ => []
  | k + 1, w => bigEndianBytes k (w / 256) ++ [BitVec.ofNat 8 w]

/-- The wire bytes of the table word `w` of `nbits` bits: the header most significant byte first (R81), then as many
zero payload bytes as its length byte asks for. -/
def tableBytes (nbits w : Nat) : List Byte :=
  let bs := bigEndianBytes (nbits / 8) w
  (bs ++ List.replicate Config.maxLen 0).take (6 + (bs.getD 5 0).toNat)

/-- The instruction the decoder reads from a word of the opcode table, in the table's own numbering. -/
def decodeTableWord (nbits w : Nat) : Option Instr :=
  match decode (tableBytes nbits w) with
  | .ok i => some i
  | .error _ => none

end Sys2Proof
end

