-- ==== Sys2Proof/Machine/State.lean ====
section
/-! DEFINITION. The state of the hardware (10_state.md, 20_memory.md R50): the decoder `DEC`, the encoder `ENC`,
the status register `frame_valid`, the streams beyond the ports, what the environment is told, and the
operations the environment offers. All of it is plain data. -/

namespace Sys2Proof.Machine

/-! ### The buffers -/

/-- A payload buffer of `BUF_CAP` cells (R7, R50): the cells written since `RESET`, by rising index. An index that is not
listed is an absent cell, one that holds no value (R26, R33). -/
structure Memory where
  cells : List Host.Cell
  deriving DecidableEq, Repr

/-- Indices rise strictly from `lo` on and stay below `BUF_CAP`. -/
def Memory.risingFrom : Nat → List Host.Cell → Bool
  | _, [] => true
  | lo, (a, _) :: rest => decide (lo ≤ a) && decide (a < Config.bufCap) && Memory.risingFrom (a + 1) rest

/-- The canonical form: equal buffers are equal data. -/
def Memory.wf (m : Memory) : Bool := Memory.risingFrom 0 m.cells

/-- Every cell absent, as `RESET` leaves a buffer (R200). -/
def Memory.absent : Memory := ⟨[]⟩

/-! ### The decoder -/

/-- `dec.phase` (R21). Its numeric codes are unobservable (D3). -/
inductive DecPhase where
  | sync
  | readCommand
  | readLength
  | readPayload
  deriving DecidableEq, Repr

/-- The registers of `DEC` and `RXBUF`. -/
structure Dec where
  /-- `dec.phase` (R21). -/
  phase : DecPhase
  /-- `dec.sync_index`, 3 bits (R22). -/
  syncIndex : BitVec 3
  /-- `dec.pending_command` (R23). -/
  pendingCommand : Byte
  /-- `dec.pending_length` (R24). -/
  pendingLength : Byte
  /-- `dec.filled_count` (R25). -/
  filledCount : Byte
  /-- `RXBUF` (R26, R51). -/
  rxbuf : Memory
  deriving DecidableEq, Repr

/-- `DEC` after `RESET` (R43, R200). -/
def Dec.reset : Dec := ⟨.sync, 0, 0, 0, 0, Memory.absent⟩

/-! ### The encoder -/

/-- `enc.phase` (R29). Its numeric codes are unobservable (D10). -/
inductive EncPhase where
  | idle
  | pre
  | cmd
  | len
  | pay
  deriving DecidableEq, Repr

/-- The registers of `ENC` and `TXBUF`. -/
structure Enc where
  /-- `enc.phase` (R29). -/
  phase : EncPhase
  /-- `enc.count` (R30). -/
  count : Byte
  /-- `enc.command` (R31). -/
  command : Byte
  /-- `enc.length` (R32). -/
  length : Byte
  /-- `TXBUF` (R33, R52). -/
  txbuf : Memory
  deriving DecidableEq, Repr

/-- `ENC` after `RESET` (R43, R200). -/
def Enc.reset : Enc := ⟨.idle, 0, 0, 0, Memory.absent⟩

/-! ### What an offerer is told -/

/-- The source's error kinds by their symbolic names; they have no numeric codes (R182 to R185, D16). -/
inductive ErrorKind where
  /-- `INVALID_ARGUMENT`, the one kind the blocks and the facade raise (R182). -/
  | invalidArgument
  /-- `TRANSPORT_SEND_FAILURE`, raised by the transport (R183). -/
  | transportSendFailure
  /-- `TRANSPORT_RECEIVE_FAILURE`, raised by the transport (R184). -/
  | transportReceiveFailure
  /-- `OPEN_FAILURE`, raised before the transport is open (R185). -/
  | openFailure
  deriving DecidableEq, Repr

/-- The outcome an offered operation had, as its offerer learns it (R180). The fourth outcome, undefined, is a fault. -/
inductive Answer where
  /-- The step happened as its rule says. -/
  | performed
  /-- The handshake output was low and nothing changed. -/
  | notEnabled
  /-- Refused, with its kind, and nothing changed (R181). -/
  | refused (kind : ErrorKind)
  /-- A failure that arose outside the blocks, which they do not see (R116, R183 to R185). -/
  | failed (kind : ErrorKind)
  deriving DecidableEq, Repr

/-! ### What the environment offers -/

/-- The Device Facade operations, the protocol's pseudo-instructions (R94, R164 to R171). -/
inductive FacadeOp where
  /-- `hz` as its 32-bit pattern (R165, U19). -/
  | setFrequency (hz : Word32)
  | setMode (mode : Byte)
  /-- `level` is any integer at the call (R167). -/
  | setTxPower (level : Int)
  | requestWatchdogMsg
  | requestReceiveMsg
  | flush
  /-- `none` is a call with no buffer at all (R171, R182). -/
  | transmit (buffer : Option (List Byte))
  deriving DecidableEq, Repr

/-- The input ports at one clock edge (R37, R38, R42); an absent value is a port whose valid input is 0. -/
structure EdgeIn where
  /-- `rst`. -/
  rst : Bool
  /-- `rx_valid` and `rx_data`. -/
  rx : Option Byte
  /-- `txbuf_we`, `txbuf_waddr` and `txbuf_wdata`. -/
  txbufWrite : Option (Byte × Byte)
  /-- `req_valid`, `req_cmd` and `req_len`. -/
  request : Option (Byte × Byte)
  /-- `tx_ready`. -/
  txReady : Bool
  /-- `rxbuf_raddr`, when the sink samples `rxbuf_rdata` in the cycle before the edge. -/
  rxbufRaddr : Option Byte
  deriving DecidableEq, Repr

/-- One operation the environment offers (R41, R194). -/
inductive Offer where
  /-- The requester asks `ENC` to send the frame with these wire bytes: the instruction the step fetches. -/
  | frame (bytes : List Byte)
  /-- `SEND(c, p)` (R103). -/
  | send (command : Byte) (payload : List Byte)
  /-- A call of the Device Facade (R164). -/
  | call (op : FacadeOp)
  /-- `TXBUF_WRITE(i, v)` (R104). -/
  | txbufWrite (index value : Byte)
  /-- `ENC_START(c, n)` (R105). -/
  | encStart (command length : Byte)
  /-- `ENC_EMIT`: the transport is ready for a byte (R106 to R109, R114). -/
  | encEmit
  /-- `DEC_STEP(b)` (R120). -/
  | decStep (byte : Byte)
  /-- A chunk of the Receive Loop, one `DEC_STEP` a byte in order (R54, R175). -/
  | rxChunk (bytes : List Byte)
  /-- The sink samples `rxbuf_rdata` at this `rxbuf_raddr` (R37). -/
  | sinkRead (index : Byte)
  /-- `RESET` (R200). -/
  | rst
  /-- One clock edge with all the input ports at once (R42). -/
  | edge (ports : EdgeIn)
  /-- A failure that arises outside the blocks reaches its caller (R183 to R185). -/
  | environmentFailure (kind : ErrorKind)
  deriving DecidableEq, Repr

/-! ### The whole state -/

/-- The hardware and its environment. -/
structure State where
  /-- The decoder's registers and `RXBUF` (R21 to R26). -/
  dec : Dec
  /-- The encoder's registers and `TXBUF` (R29 to R33). -/
  enc : Enc
  /-- `frame_valid` (R35): the step just taken executed `emit`. -/
  frameValid : Bool
  /-- `RX`: the bytes `DEC` has consumed since `RESET`, in order (R50, R53, R54). -/
  rx : List Byte
  /-- `TX`: every byte `ENC` has emitted, in order; a byte emitted stays emitted (R50, R55, R203). -/
  tx : List Byte
  /-- Where in `tx` position 0 of `TX` stands: positions count from the last `RESET` (R50). -/
  txStart : Nat
  /-- The frames handed to the sink, in order (R141, R188). -/
  frames : List Frame
  /-- The bytes the sink has sampled on `rxbuf_rdata`, in order (R37). -/
  samples : List Byte
  /-- What the offerers were told of the step just taken, in order (R180, R181). -/
  answers : List Answer
  /-- The model's own counter: how many draws of free values there have been. -/
  draws : Nat
  /-- What the environment offers next, oldest first (R41, R194). -/
  offers : List Offer
  deriving DecidableEq, Repr

/-- Right after `RESET`, with nothing offered (R43, R200, R201). -/
def State.reset : State where
  dec := Dec.reset
  enc := Enc.reset
  frameValid := false
  rx := []
  tx := []
  txStart := 0
  frames := []
  samples := []
  answers := []
  draws := 0
  offers := []

/-- `TX` by position since `RESET`: its bytes from position 0 on (R50). -/
def State.txSinceReset (s : State) : List Byte := s.tx.drop s.txStart

/-! ### How a step can stop -/

/-- What stops the machine for good. -/
inductive Fault where
  /-- `ENC_EMIT` reads a `TXBUF` cell not written since `RESET` (R109, R217). Raised by `encEmit`.
  Safe: the spec says the output byte is undefined and the step a fault. -/
  | absentTxbufCell
  /-- `ENC_EMIT` in phase `PRE` with `enc.count` above 3, which no reachable state has (R34). Raised by `encEmit`.
  Safe: the spec gives `PREAMBLE` no such index. -/
  | noSuchPreambleByte
  deriving DecidableEq, Repr

/-- What the model gives no meaning. -/
inductive Refusal where
  /-- An instruction with no meaning yet, by its mnemonic. Raised by no arm of `exec`. Safe. -/
  | notModelled (mnemonic : String)
  /-- The bytes a requester offers as a frame are not the encoding of one. Raised by the fetch of a step.
  Safe: such a request does not exist in the spec, whose requests are a command and a payload (R103). -/
  | notAFrame (reason : DecodeError)
  deriving DecidableEq, Repr

end Sys2Proof.Machine
end

