-- ==== Sys2Proof/Machine/Ops.lean ====
section
/-! DEFINITION. The shared operations: one cell of a buffer, the next byte of a stream, what an offerer is told,
delivery of a frame to the sink (the analogue of taking an exception, R188), refusal (R181), `RESET` (R200) and
what every step does before its operation. -/

namespace Sys2Proof.Machine

/-! ### Buffers: `MemRead` and `MemWrite` (R14, R50 to R52) -/

/-- The byte listed under index `i`. -/
def findCell (i : Nat) : List Host.Cell → Option Byte
  | [] => none
  | (a, v) :: rest => if a = i then some v else findCell i rest

/-- The list with `v` under index `i`, in its place. -/
def putCell (i : Nat) (v : Byte) : List Host.Cell → List Host.Cell
  | [] => [(i, v)]
  | (a, w) :: rest =>
    if i < a then (i, v) :: (a, w) :: rest
    else if i = a then (i, v) :: rest
    else (a, w) :: putCell i v rest

/-- `MemRead(buffer, i, 1)`: `none` for an absent cell, and for an index at or above `BUF_CAP`, which does not exist. -/
def readCell (m : Memory) (i : Nat) : Option Byte :=
  if i < Config.bufCap then findCell i m.cells else none

/-- `MemWrite(buffer, i, 1, v)`: an index at or above `BUF_CAP` does not exist, and no cell changes. -/
def writeCell (m : Memory) (i : Nat) (v : Byte) : Memory :=
  if i < Config.bufCap then ⟨putCell i v m.cells⟩ else m

/-- `PREAMBLE[k]` (R5). -/
def preambleByte (k : Nat) : Option Byte := Config.preamble[k]?

/-! ### What an offerer is told (R180, R181) -/

/-- One offered operation had this outcome. -/
def reply (a : Answer) (s : State) : State := { s with answers := s.answers ++ [a] }

/-- `refuse <Kind>`: nothing changes and the requester is told the kind (R181). -/
def refuse (k : ErrorKind) (s : State) : State := reply (.refused k) s

/-- The operation is not enabled: nothing changes (R180). -/
def notEnabled (s : State) : State := reply .notEnabled s

/-! ### The streams and the sink -/

/-- `out Byte(b)`: `TX` grows by one byte (R14, R55). -/
def outByte (b : Byte) (s : State) : State := { s with tx := s.tx ++ [b] }

/-- The frame output of a `DEC_STEP`: `emit` hands the frame to the sink once and `frame_valid` is 1 after the step; a step
without `emit` leaves it 0 (R35, R42, R141, R188). -/
def deliver (f : Option Frame) (s : State) : State :=
  match f with
  | some f => { s with frameValid := true, frames := s.frames ++ [f] }
  | none => { s with frameValid := false }

/-- The sink samples `rxbuf_rdata` and sees this byte (R37). -/
def sample (b : Byte) (s : State) : State := { s with samples := s.samples ++ [b] }

/-! ### `RESET` and the frame of every step -/

/-- `RESET` of both blocks (R200): their registers, every buffer cell absent, `frame_valid`, and the positions in `RX` and
`TX`, which count from `RESET` (R50). The bytes already on `TX` and the frames delivered stay (R203). -/
def resetBlocks (s : State) : State :=
  reply .performed { s with dec := Dec.reset, enc := Enc.reset, frameValid := false, rx := [], txStart := s.tx.length }

/-- What a step does before its operation: the offers still to come are `rest`, nobody has been told anything yet,
`frame_valid` is 0 unless this step emits (R42), and a draw of a free value is a fresh one. -/
def beginStep (rest : List Offer) (s : State) : State :=
  { s with offers := rest, answers := [], frameValid := false, draws := s.draws + 1 }

end Sys2Proof.Machine
end

