-- ==== Sys2Proof/Machine/Flags.lean ====
section
/-! DEFINITION. The status outputs and the ports that show state (10_state.md R35 to R38). All but `frame_valid` are
functions of the state, none a register (R36). -/

namespace Sys2Proof.Machine

/-- The byte `ENC_EMIT` would output: none in `IDLE`, and none where the cell or preamble index it reads holds no
value (R106 to R109, R114). -/
def encOffer (e : Enc) : Option Byte :=
  match e.phase with
  | .idle => none
  | .pre => preambleByte e.count.toNat
  | .cmd => some e.command
  | .len => some e.length
  | .pay => readCell e.txbuf e.count.toNat

/-- `enc_busy` (R36). -/
def encBusy (s : State) : Bool := decide (s.enc.phase ≠ .idle)

/-- `req_ready` (R36). -/
def reqReady (s : State) : Bool := decide (s.enc.phase = .idle)

/-- `txbuf_ready` (R36). -/
def txbufReady (s : State) : Bool := decide (s.enc.phase = .idle)

/-- `tx_valid` (R36). -/
def txValid (s : State) : Bool := decide (s.enc.phase ≠ .idle)

/-- `tx_last` (R36); the subtraction is avoided as R132 does, `enc.length` being at least 1 in `PAY`. -/
def txLast (s : State) : Bool :=
  (decide (s.enc.phase = .len) && decide (s.enc.length = 0)) ||
  (decide (s.enc.phase = .pay) && decide (s.enc.count.toNat + 1 = s.enc.length.toNat))

/-- `tx_data` (R38): unspecified while no byte is on offer. In `PAY` over an absent `TXBUF` cell `tx_valid` is 1 and the spec says of the
byte only that the output of an `ENC_EMIT` is undefined and a fault (R109, R217): what the port shows before that emit is the model's
choice, a free byte, fresh at each step (DESIGN CHOICE, log entry 6). So it is in `PRE` with `enc.count` above 3, which no run reaches
(log entry 16). -/
def txData (s : State) : Byte :=
  match encOffer s.enc with
  | some b => b
  | none => Config.freeTxData s.draws

/-- `frame_cmd` (R37). -/
def frameCmd (s : State) : Byte := s.dec.pendingCommand

/-- `frame_len` (R37). -/
def frameLen (s : State) : Byte := s.dec.pendingLength

/-- `rxbuf_rdata` at an `rxbuf_raddr` (R37): a draw for an absent cell and for index 255 (R26, R51). -/
def rxbufRdata (s : State) (a : Byte) : Byte :=
  match readCell s.dec.rxbuf a.toNat with
  | some b => b
  | none => Config.freeRxbufData s.draws a

end Sys2Proof.Machine
end

