-- ==== Sys2Proof/Machine/Decoder.lean ====
section
/-! DEFINITION. The frame decoder `DEC` (41_decoder.md): `DEC_STEP` phase by phase as a function from a decoder state and
a byte to a decoder state and an optional frame, the stream functions `DEC_RUN` and `DECODE`, and `DEC_STEP` on the
whole state. -/

namespace Sys2Proof.Machine

/-- Where a preamble mismatch leaves `dec.sync_index`: 0 (R122), or 1 in the variant that re-tests the byte (R124). -/
def resyncIndex (retest : Bool) (b : Byte) : BitVec 3 :=
  if retest = true ∧ preambleByte 0 = some b then 1 else 0

/-- Phase `SYNC` (R121, R122, R124). With `dec.sync_index` 4 to 7, which no run reaches in this phase (R22), `PREAMBLE` has no byte to
compare with and the rules say nothing: the model takes every byte there as a mismatch (DESIGN CHOICE, log entry 14). -/
def decSync (retest : Bool) (b : Byte) (d : Dec) : Dec :=
  if preambleByte d.syncIndex.toNat = some b then
    if d.syncIndex = 3 then { d with syncIndex := 4, phase := .readCommand }
    else { d with syncIndex := d.syncIndex + 1 }
  else { d with syncIndex := resyncIndex retest b }

/-- Phase `READ_COMMAND` (R127). -/
def decReadCommand (b : Byte) (d : Dec) : Dec := { d with pendingCommand := b, phase := .readLength }

/-- Phase `READ_LENGTH` (R128). -/
def decReadLength (b : Byte) (d : Dec) : Dec × Option Frame :=
  if b = 0 then
    ({ d with pendingLength := b, filledCount := 0, phase := .sync, syncIndex := 0 }, some ⟨d.pendingCommand, []⟩)
  else ({ d with pendingLength := b, filledCount := 0, phase := .readPayload }, none)

/-- `RXBUF[0..n)` as the `emit` of a frame copies it (R130, R141). -/
def readCells (m : Memory) (n : Nat) : List Byte :=
  (List.range n).map fun i => (readCell m i).getD (Config.freeEmitData i)

/-- Phase `READ_PAYLOAD`: the store, then the test for the last byte, then `emit` from the updated buffer (R129, R130, R192).
The test is `i + 1 = dec.pending_length` (R132). With `i` not below `dec.pending_length`, which no run reaches (R28), the test fails and
the step stores and counts on (DESIGN CHOICE, log entry 14). -/
def decReadPayload (b : Byte) (d : Dec) : Dec × Option Frame :=
  let buf := writeCell d.rxbuf d.filledCount.toNat b
  if d.filledCount.toNat + 1 = d.pendingLength.toNat then
    ({ d with rxbuf := buf, filledCount := d.filledCount + 1, phase := .sync, syncIndex := 0 },
      some ⟨d.pendingCommand, readCells buf d.pendingLength.toNat⟩)
  else ({ d with rxbuf := buf, filledCount := d.filledCount + 1 }, none)

/-- `DEC_STEP(b)` for either value of `RESYNC_RETEST` (R120, R138). -/
def decStepWith (retest : Bool) (b : Byte) (d : Dec) : Dec × Option Frame :=
  match d.phase with
  | .sync => (decSync retest b d, none)
  | .readCommand => (decReadCommand b d, none)
  | .readLength => decReadLength b d
  | .readPayload => decReadPayload b d

/-- `DEC_RUN(s0, s)`: the final state and the frames emitted, in order (R133). -/
def decRun (retest : Bool) : Dec → List Byte → Dec × List Frame
  | d, [] => (d, [])
  | d, b :: bs =>
    let r := decStepWith retest b d
    let q := decRun retest r.1 bs
    (q.1, r.2.toList ++ q.2)

/-- `DECODE(s)`: the frames of a fresh decoder (R133). -/
def decodeStream (retest : Bool) (bs : List Byte) : List Frame := (decRun retest Dec.reset bs).2

/-- `DEC_STEP(b)` on the whole state, in the block built with `cfg`: one byte of `RX` is consumed and at most one frame delivered (R120, R188). -/
def decStep (cfg : Config.Parameters) (b : Byte) (s : State) : State :=
  let r := decStepWith cfg.resyncRetest b s.dec
  reply .performed (deliver r.2 { s with dec := r.1, rx := s.rx ++ [b] })

/-- A chunk of inbound bytes, fed one by one (R54, R175). -/
def decFeed (cfg : Config.Parameters) : List Byte → State → State
  | [], s => s
  | b :: bs, s => decFeed cfg bs (decStep cfg b s)

end Sys2Proof.Machine
end

