-- ==== Sys2Proof/Machine/Encoder.lean ====
section
/-! DEFINITION. The frame encoder `ENC` (40_encoder.md): the function `ENCODE`, the serializer's operations
`TXBUF_WRITE`, `ENC_START` and `ENC_EMIT`, and the composite `SEND`. -/

namespace Sys2Proof.Machine

/-- `ENCODE(c, p)`, refused for `|p| > 255` (R100, R101). -/
def encodeRequest (c : Byte) (p : List Byte) : Except ErrorKind (List Byte) :=
  if p.length ≤ Config.maxLen then .ok (frameBytes c p) else .error .invalidArgument

/-! ### The register changes -/

/-- One cell of `TXBUF`. -/
def encStore (i : Nat) (v : Byte) (e : Enc) : Enc := { e with txbuf := writeCell e.txbuf i v }

/-- Consecutive cells of `TXBUF` from index `i` on. -/
def encLoad (i : Nat) : List Byte → Enc → Enc
  | [], e => e
  | v :: vs, e => encLoad (i + 1) vs (encStore i v e)

/-- The registers `ENC_START(c, n)` writes (R105). -/
def encLatch (c n : Byte) (e : Enc) : Enc := { e with phase := .pre, count := 0, command := c, length := n }

/-- The registers `ENC_EMIT` writes, by phase (R106 to R109). In `PAY` with `enc.count` not below `enc.length`, which no run reaches
(R34), it counts on (DESIGN CHOICE, log entry 14). -/
def encAdvance (e : Enc) : Enc :=
  match e.phase with
  | .idle => e
  | .pre => if e.count = 3 then { e with phase := .cmd, count := 0 } else { e with count := e.count + 1 }
  | .cmd => { e with phase := .len }
  | .len => if e.length = 0 then { e with phase := .idle } else { e with phase := .pay }
  | .pay =>
    if e.count.toNat + 1 = e.length.toNat then { e with phase := .idle, count := 0 }
    else { e with count := e.count + 1 }

/-! ### The operations at the ports -/

/-- `TXBUF_WRITE(i, v)` (R104). -/
def txbufWrite (i v : Byte) (s : State) : State :=
  if s.enc.phase ≠ .idle then notEnabled s
  else if Config.bufCap ≤ i.toNat then refuse .invalidArgument s
  else reply .performed { s with enc := encStore i.toNat v s.enc }

/-- `ENC_START(c, n)` (R105). -/
def encStart (c n : Byte) (s : State) : State :=
  if s.enc.phase ≠ .idle then notEnabled s
  else reply .performed { s with enc := encLatch c n s.enc }

/-- `ENC_EMIT` (R106 to R109, R114): a fault where the byte to output has no value (R217). -/
def encEmit (s : State) : Host.Outcome State Fault Refusal :=
  if s.enc.phase = .idle then .next (notEnabled s)
  else
    match encOffer s.enc with
    | some b => .next (reply .performed (outByte b { s with enc := encAdvance s.enc }))
    | none => if s.enc.phase = .pay then .fault .absentTxbufCell else .fault .noSuchPreambleByte

/-- `SEND(c, p)` up to its `ENC_START`, which is where the request is accepted (R103): the payload goes to `TXBUF[0..|p|)`, the
frame starts, and its bytes follow as the transport takes them. A payload over 255 bytes is refused (R101); while a frame is
in progress the request waits and nothing changes (R110). -/
def send (c : Byte) (p : List Byte) (s : State) : Host.Outcome State Fault Refusal :=
  match encodeRequest c p with
  | .error k => .next (refuse k s)
  | .ok _ =>
    if s.enc.phase ≠ .idle then .next (notEnabled s)
    else .next (reply .performed { s with enc := encLatch c (BitVec.ofNat 8 p.length) (encLoad 0 p s.enc) })

end Sys2Proof.Machine
end

