-- ==== Sys2Proof/Machine/Commands.lean ====
section
/-! DEFINITION. The meaning of each command frame (42_command_frames.md R150 to R162): the requester performs
`SEND(id, payload)` and `ENC` serialises the frame (R103 to R111). The blocks treat all command ids alike (R82, R88,
R89, R115); a command's own rule fixes its id and its payload layout. -/

namespace Sys2Proof.Machine

/-- Command 1 (R150): two independent fields, `le32(rx)` then `le32(tx)`. -/
def execSetFrequency (rx tx : Word32) (s : State) : Host.Outcome State Fault Refusal :=
  send Config.idSetFrequency (le32 rx ++ le32 tx) s

/-- Command 2 (R151). -/
def execSetMode (mode : Byte) (s : State) : Host.Outcome State Fault Refusal :=
  send Config.idSetMode [mode] s

/-- Command 3 (R152): the buffer flushed is the modem's, so nothing but the serialisation happens here (R67). -/
def execFlushTxBuffer (s : State) : Host.Outcome State Fault Refusal :=
  send Config.idFlushTxBuffer [] s

/-- Command 4 (R153): the data copied unchanged, its size not checked by the blocks (R89). -/
def execWriteTxData (data : List Byte) (s : State) : Host.Outcome State Fault Refusal :=
  send Config.idWriteTxData data s

/-- Command 5 (R154). -/
def execWatchdogRequest (s : State) : Host.Outcome State Fault Refusal :=
  send Config.idWatchdogRequest [] s

/-- Command 7 (R155). -/
def execGetReceiveData (s : State) : Host.Outcome State Fault Refusal :=
  send Config.idGetReceiveData [] s

/-- Command 8 (R156): any byte, carried unchanged (U4). -/
def execGreenLedControl (value : Byte) (s : State) : Host.Outcome State Fault Refusal :=
  send Config.idGreenLedControl [value] s

/-- Command 9 (R157): the range of the level is checked by `setTxPower` alone (R167). -/
def execSetTxPower (level : Byte) (s : State) : Host.Outcome State Fault Refusal :=
  send Config.idSetTxPower [level] s

/-- Command 10 (R158): any payload (U3). -/
def execDebug (payload : List Byte) (s : State) : Host.Outcome State Fault Refusal :=
  send Config.idDebug payload s

/-- Command 17 (R159): any payload (U3). -/
def execSetSeed (payload : List Byte) (s : State) : Host.Outcome State Fault Refusal :=
  send Config.idSetSeed payload s

/-- Command 18 (R160). -/
def execGetVersion (s : State) : Host.Outcome State Fault Refusal :=
  send Config.idGetVersion [] s

/-- Command 19 (R161): any payload (U3). -/
def execSetTxBuffer (payload : List Byte) (s : State) : Host.Outcome State Fault Refusal :=
  send Config.idSetTxBuffer payload s

/-- The generic frame (R162): any command, any payload, carried unchanged. -/
def execFrameAny (command : Byte) (payload : List Byte) (s : State) : Host.Outcome State Fault Refusal :=
  send command payload s

end Sys2Proof.Machine
end

