-- ==== Sys2Proof/Machine/Dispatch.lean ====
section
/-! DEFINITION. One arm per constructor of `Instr`, each one call of its meaning. -/

namespace Sys2Proof.Machine

def exec (i : Instr) (s : State) : Host.Outcome State Fault Refusal :=
  match i with
  | .setFrequency rx tx => Sys2Proof.Machine.execSetFrequency rx tx s
  | .setMode mode => Sys2Proof.Machine.execSetMode mode s
  | .flushTxBuffer => Sys2Proof.Machine.execFlushTxBuffer s
  | .writeTxData data => Sys2Proof.Machine.execWriteTxData data s
  | .watchdogRequest => Sys2Proof.Machine.execWatchdogRequest s
  | .getReceiveData => Sys2Proof.Machine.execGetReceiveData s
  | .greenLedControl value => Sys2Proof.Machine.execGreenLedControl value s
  | .setTxPower level => Sys2Proof.Machine.execSetTxPower level s
  | .debug payload => Sys2Proof.Machine.execDebug payload s
  | .setSeed payload => Sys2Proof.Machine.execSetSeed payload s
  | .getVersion => Sys2Proof.Machine.execGetVersion s
  | .setTxBuffer payload => Sys2Proof.Machine.execSetTxBuffer payload s
  | .frameAny command payload => Sys2Proof.Machine.execFrameAny command payload s

end Sys2Proof.Machine
end

