-- ==== Sys2Proof/Machine/Operands.lean ====
section
/-! DEFINITION. The operands a requester builds (30_encoding.md R85) and the preconditions the Device Facade checks
before a request reaches `ENC` (42_command_frames.md R164 to R171; 60_exceptions.md R182). -/

namespace Sys2Proof.Machine

/-- `transmit`'s precondition: a buffer, of 1 to 245 bytes (R171). -/
def transmitOperand (buffer : Option (List Byte)) : Except ErrorKind (List Byte) :=
  match buffer with
  | none => .error .invalidArgument
  | some data =>
    if 1 ≤ data.length ∧ data.length ≤ Config.transmitMax then .ok data else .error .invalidArgument

/-- `setTxPower`'s precondition, `0 ≤ level ≤ 9`, and the byte equal to the number (R85, R167). -/
def powerOperand (level : Int) : Except ErrorKind Byte :=
  if 0 ≤ level ∧ level ≤ Config.powerMax then .ok (BitVec.ofNat 8 level.toNat) else .error .invalidArgument

/-- The one frame a facade operation expands to, or the kind of its refusal (R94, R165 to R171). -/
def expand : FacadeOp → Except ErrorKind Instr
  | .setFrequency hz => .ok (.setFrequency hz hz)
  | .setMode mode => .ok (.setMode mode)
  | .setTxPower level =>
    match powerOperand level with
    | .ok b => .ok (.setTxPower b)
    | .error k => .error k
  | .requestWatchdogMsg => .ok .watchdogRequest
  | .requestReceiveMsg => .ok .getReceiveData
  | .flush => .ok .flushTxBuffer
  | .transmit buffer =>
    match transmitOperand buffer with
    | .ok data => .ok (.writeTxData data)
    | .error k => .error k

end Sys2Proof.Machine
end

