-- ==== Sys2Proof/Machine/Offers.lean ====
section
/-! DEFINITION. What the environment does to the blocks: the fetch of a frame a requester offers, one clock edge with all
the ports at once (10_state.md R42; 60_exceptions.md R192), each kind of offer, and which offer is taken next. -/

namespace Sys2Proof.Machine

/-- The instruction a requester offers, from its wire bytes. -/
def fetch (bytes : List Byte) : Except DecodeError Instr := decode bytes

/-- The instruction runs. -/
def runFrame (bytes : List Byte) (s : State) : Host.Outcome State Fault Refusal :=
  match fetch bytes with
  | .ok i => exec i s
  | .error e => .refused (.notAFrame e)

/-- A facade call: its precondition, then the one frame it expands to (R164). -/
def runCall (op : FacadeOp) (s : State) : Host.Outcome State Fault Refusal :=
  match expand op with
  | .ok i => exec i s
  | .error k => .next (refuse k s)

/-- The sink's read through `rxbuf_raddr` (R37). -/
def sinkRead (a : Byte) (s : State) : State := reply .performed (sample (rxbufRdata s a) s)

/-- The operation at the port, if one is offered. -/
def onPort {α : Type} (port : Option α) (f : α → State → State) (s : State) : State :=
  match port with
  | some x => f x s
  | none => s

/-- What `ENC` does at an edge with `rst = 0` (R42). The phase before the edge decides: idle, a write and a start, the write
seen by the frame (R105, R192); busy, an emit if `tx_ready`, and a write or a start offered then is not enabled. -/
def encEdge (p : EdgeIn) (s : State) : Host.Outcome State Fault Refusal :=
  let s' := onPort p.request (fun r => encStart r.1 r.2) (onPort p.txbufWrite (fun w => txbufWrite w.1 w.2) s)
  if s.enc.phase ≠ .idle ∧ p.txReady = true then encEmit s' else .next s'

/-- One clock edge: `rst` overrides all else; otherwise the two blocks act independently (R42, R192). What the sink samples
is the buffer as it stands before the edge. An operation that `rst` overrides does not happen; what its offerer is told R180 does not
say, and the model tells it nothing (DESIGN CHOICE, log entry 10). -/
def clockEdge (cfg : Config.Parameters) (p : EdgeIn) (s : State) : Host.Outcome State Fault Refusal :=
  let s := onPort p.rxbufRaddr sinkRead s
  if p.rst = true then .next (resetBlocks s) else encEdge p (onPort p.rx (decStep cfg) s)

/-- The operation an offer stands for, in the blocks built with `cfg`. -/
def runOffer (cfg : Config.Parameters) (o : Offer) (s : State) : Host.Outcome State Fault Refusal :=
  match o with
  | .frame bytes => runFrame bytes s
  | .send c p => send c p s
  | .call op => runCall op s
  | .txbufWrite i v => .next (txbufWrite i v s)
  | .encStart c n => .next (encStart c n s)
  | .encEmit => encEmit s
  | .decStep b => .next (decStep cfg b s)
  | .rxChunk bs => .next (decFeed cfg bs s)
  | .sinkRead a => .next (sinkRead a s)
  | .rst => .next (resetBlocks s)
  | .edge p => clockEdge cfg p s
  | .environmentFailure k => .next (reply (.failed k) s)

/-- A request waits until `enc.phase = IDLE`: an offer that ends in a `SEND` (R103) and an `ENC_START`, which stays pending (R105).
One that would be refused does not wait. Any other offer is for one step: a `TXBUF_WRITE` is not remembered (R104, R212), and the
input ports of an edge hold for that edge. -/
def offerWaits (e : Enc) (o : Offer) : Bool :=
  decide (e.phase ≠ .idle) &&
    match o with
    | .frame bytes => (fetch bytes).isOk
    | .send _ p => decide (p.length ≤ Config.maxLen)
    | .call op => (expand op).isOk
    | .encStart _ _ => true
    | _ => false

/-- The first offer that does not wait, and the offers that stay, in their order: a waiting request does not hold up the
other operations (R180, U12). -/
def takeOffer (e : Enc) : List Offer → Option (Offer × List Offer)
  | [] => none
  | o :: rest =>
    if offerWaits e o = true then
      match takeOffer e rest with
      | some (o', rest') => some (o', o :: rest')
      | none => none
    else some (o, rest)

/-- One step of the blocks built with `cfg`: the next offer that can proceed is performed; with none, they hold their state (R198). -/
def stepWith (cfg : Config.Parameters) (s : State) : Host.Outcome State Fault Refusal :=
  match takeOffer s.enc s.offers with
  | some (o, rest) => runOffer cfg o (beginStep rest s)
  | none => .next (beginStep s.offers s)

/-- The machine with the blocks built with `cfg`. -/
def machineWith (cfg : Config.Parameters) : Host.Core where
  State := State
  Fault := Fault
  Refusal := Refusal
  step := stepWith cfg
  reset := State.reset

end Sys2Proof.Machine
end

