-- ==== Sys2Proof/Machine/Step.lean ====
section
/-! DEFINITION. One step of the machine the host runs: the blocks built with the default of every parameter (00_scope.md R8). -/

namespace Sys2Proof.Machine

/-- One step, with the default of every parameter (R8). -/
def step (s : State) : Host.Outcome State Fault Refusal := stepWith Config.standard s

/-- `s` with the frame of a table word as the next request offered. -/
def State.withFetchWord (s : State) (nbits w : Nat) : State :=
  { s with offers := .frame (tableBytes nbits w) :: s.offers }

end Sys2Proof.Machine
end

