-- ==== Sys2Proof/Machine/Environment.lean ====
section
/-! DEFINITION. The traffic of the source's surrounding software (42_command_frames.md R174; 70_reset_and_hazards.md R208),
as offers of the environment. It binds no block behaviour and no step reads it. -/

namespace Sys2Proof.Machine

/-- The Keepalive Loop's one-time initialisation: default mode, then maximum power (R174). -/
def keepaliveStart : List Offer :=
  [.call (.setMode Config.defaultMode), .call (.setTxPower Config.powerMax)]

/-- The requests of keepalive tick `n` (ticks count from 1): receive data every tick, and the watchdog request too every
`WATCHDOG_EVERY`-th, in either order (R174, U15). -/
def keepaliveTick (watchdogFirst : Bool) (n : Nat) : List Offer :=
  if n % Config.watchdogEvery = 0 then
    if watchdogFirst then [.call .requestWatchdogMsg, .call .requestReceiveMsg]
    else [.call .requestReceiveMsg, .call .requestWatchdogMsg]
  else [.call .requestReceiveMsg]

end Sys2Proof.Machine
end

