-- ==== Sys2Proof/Safety.lean ====
section
/-! DEFINITION. What counts as a good state and a safe run, in the terms the statements use: the invariants of the reachable
states (10_state.md R22, R25, R28, R34), a frame accepted for sending, a frame partly sent, what the decoder has made of
its input, the quiescent point (70_reset_and_hazards.md R222), and the endless runs under the duty of the transport
(40_encoder.md R112; 60_exceptions.md R194). -/

namespace Sys2Proof.Machine

/-- The decoder's reachable states (R22, R25, R26, R28). -/
structure Dec.Inv (d : Dec) : Prop where
  syncing : d.phase = .sync → d.syncIndex.toNat ≤ 3
  matched : d.phase ≠ .sync → d.syncIndex = 4
  filling : d.phase = .readPayload → d.filledCount.toNat < d.pendingLength.toNat
  present : d.phase = .readPayload → ∀ j, j < d.filledCount.toNat → (readCell d.rxbuf j).isSome
  canonical : d.rxbuf.wf = true

/-- The encoder's reachable states (R34). -/
structure Enc.Inv (e : Enc) : Prop where
  preamble : e.phase = .pre → e.count.toNat ≤ 3
  payload : e.phase = .pay → e.count.toNat < e.length.toNat
  elsewhere : e.phase = .idle ∨ e.phase = .cmd ∨ e.phase = .len → e.count = 0
  canonical : e.txbuf.wf = true

/-- The reachable states of the hardware. -/
structure State.Inv (s : State) : Prop where
  dec : s.dec.Inv
  enc : s.enc.Inv
  start : s.txStart ≤ s.tx.length

/-- Every cell the frame in progress carries has been written since `RESET`: the premise of R217. -/
def Enc.PayloadPresent (e : Enc) : Prop :=
  e.phase ≠ .idle → ∀ j, j < e.length.toNat → (readCell e.txbuf j).isSome

/-- `TXBUF[0..|p|)` is present and equal to `p` (R111). -/
def Enc.Holds (e : Enc) (p : List Byte) : Prop := ∀ j, j < p.length → readCell e.txbuf j = p[j]?

/-- What the acceptance of the request `(c, p)` turns `s` into: the frame is started, its payload is in `TXBUF`, and nothing else
of the hardware has changed (R103 to R105). -/
structure Accepted (c : Byte) (p : List Byte) (s t : State) : Prop where
  phase : t.enc.phase = .pre
  count : t.enc.count = 0
  command : t.enc.command = c
  length : t.enc.length.toNat = p.length
  payload : t.enc.Holds p
  otherCells : ∀ j, p.length ≤ j → readCell t.enc.txbuf j = readCell s.enc.txbuf j
  dec : t.dec = s.dec
  frameValid : t.frameValid = s.frameValid
  rx : t.rx = s.rx
  tx : t.tx = s.tx
  txStart : t.txStart = s.txStart
  frames : t.frames = s.frames
  samples : t.samples = s.samples
  answers : t.answers = s.answers ++ [.performed]
  draws : t.draws = s.draws
  offers : t.offers = s.offers

/-- `part` is what is already on `TX` of the frame in progress (R61). -/
def InFlight (e : Enc) (part : List Byte) : Prop :=
  match e.phase with
  | .idle => part = []
  | .pre => part = Config.preamble.take e.count.toNat
  | .cmd => part = Config.preamble
  | .len => part = Config.preamble ++ [e.command]
  | .pay => ∃ p : List Byte,
      p.length = e.count.toNat ∧ e.Holds p ∧ part = Config.preamble ++ [e.command] ++ [e.length] ++ p

/-- From `t0` on, `TX` is whole encoded frames and then the frame in progress: no frame's bytes stand inside another's
(R63, R68, R110). -/
def State.FramedFrom (t0 : List Byte) (s : State) : Prop :=
  ∃ (fs : List Frame) (part : List Byte),
    (∀ f ∈ fs, f.payload.length ≤ Config.maxLen) ∧ InFlight s.enc part ∧
    s.tx = t0 ++ fs.flatMap (fun f => frameBytes f.command f.payload) ++ part

/-- The decoder is where `DEC_RUN` from reset over the bytes consumed since `RESET` ends, and the frames of that run are the
last ones delivered (R133). -/
def State.DecodesItsInput (cfg : Config.Parameters) (s : State) : Prop :=
  (decRun cfg.resyncRetest Dec.reset s.rx).1 = s.dec ∧
  (decRun cfg.resyncRetest Dec.reset s.rx).2 <:+ s.frames

/-- The offer the next step takes is a `RESET`. -/
def State.takesReset (s : State) : Bool :=
  match takeOffer s.enc s.offers with
  | some (.rst, _) => true
  | some (.edge p, _) => p.rst
  | _ => false

/-- No frame is partly sent or partly received (R222). -/
def State.quiescent (s : State) : Bool :=
  decide (s.enc.phase = .idle) && decide (s.dec.phase = .sync) && decide (s.dec.syncIndex = 0)

/-- What one edge does to `DEC`, `RX`, the sink's frames and `frame_valid`: one `DEC_STEP` on the byte at `rx_data` if `rx_valid = 1`, and
otherwise they hold, with `frame_valid` 0 (R42). -/
def DecTakes (cfg : Config.Parameters) (rx : Option Byte) (s t : State) : Prop :=
  match rx with
  | some b =>
    t.dec = (decStepWith cfg.resyncRetest b s.dec).1 ∧ t.rx = s.rx ++ [b] ∧
    t.frames = s.frames ++ (decStepWith cfg.resyncRetest b s.dec).2.toList ∧
    t.frameValid = (decStepWith cfg.resyncRetest b s.dec).2.isSome
  | none => t.dec = s.dec ∧ t.rx = s.rx ∧ t.frames = s.frames ∧ t.frameValid = false

/-- What the sink samples at one edge: the cell of `RXBUF` as it stands before the edge, any byte where there is none (R37, log
entry 17). -/
def SinkTakes (raddr : Option Byte) (s t : State) : Prop :=
  match raddr with
  | some a =>
    ∃ v : Byte, t.samples = s.samples ++ [v] ∧ ∀ b, readCell s.dec.rxbuf a.toNat = some b → v = b
  | none => t.samples = s.samples

/-- A run of `k` steps that meets no fault and no refusal. -/
def SafeFor (cfg : Config.Parameters) (k : Nat) (s : State) : Prop := ∃ t : State, (machineWith cfg).run k s = .next t

/-! ### Endless runs and the transport's duty (R112, R194) -/

/-- A run without end: before step `n` the environment offers `env n` behind what is still offered, and no step stops (R194). -/
def EndlessRun (cfg : Config.Parameters) (env : Nat → List Offer) (s : Nat → State) : Prop :=
  ∀ n, stepWith cfg { s n with offers := (s n).offers ++ env n } = .next (s (n + 1))

/-- The step that takes its offer from this list meets `tx_ready = 1`: an `ENC_EMIT`, or an edge with `tx_ready` that is no `RESET`. -/
def transportReady (e : Enc) (offers : List Offer) : Bool :=
  match takeOffer e offers with
  | some (.encEmit, _) => true
  | some (.edge p, _) => p.txReady && !p.rst
  | _ => false

/-- Weak fairness of the outbound transport, its duty in R194: a byte that is on offer for ever is taken, so `tx_ready` is 1 in some
step from any point on. A premise about the environment, not a fact of the blocks (R112). -/
def FairTransport (env : Nat → List Offer) (s : Nat → State) : Prop :=
  ∀ n, (∀ m, n ≤ m → txValid (s m) = true) →
    ∃ m, n ≤ m ∧ transportReady (s m).enc ((s m).offers ++ env m) = true

end Sys2Proof.Machine
end

