-- ==== Sys2Proof/Certificates/Slice0/Obligations.lean ====
section
/-! DEFINITION. The statements for the provers: the numbered rules of spec/ as propositions about the model. Where a rule does not
depend on `RESYNC_RETEST` (R8) its statement holds for every build `cfg`; the host's `step` is `stepWith Config.standard`. -/

open Sys2Proof Sys2Proof.Machine

/-! ### The wire format and the opcode table -/

/-- R80, R86, R93: decoding the encoding of a well-formed instruction gives it back. -/
def Obligations.EncodedInstructionDecodesToItself : Prop :=
  ∀ i : Instr, i.WellFormed → decode (encode i) = .ok i

/-- R80, R86, R93: a byte sequence that decodes is the encoding of the well-formed instruction it decodes to. -/
def Obligations.DecodedBytesAreTheEncoding : Prop :=
  ∀ (bs : List Byte) (i : Instr), decode bs = .ok i → i.WellFormed ∧ encode i = bs

/-- R93 (log entry 8): the decoder gives a frame the first row of the table whose mask and match its header meets. -/
def Obligations.DecoderFollowsTheOpcodeTable : Prop :=
  ∀ (c n : Byte) (p : List Byte), p.length = n.toNat →
    rowOfHeader (header c n) = some (instrOfFrame ⟨c, p⟩).mnemonic

/-- Words written out from the spec's encodings (R150 to R162; V39 to V51) decode to their instructions. That three byte sequences which
are no frame are rejected, and by these names, is the model's choice (DESIGN CHOICE, log entry 9): the spec has no such request and no
error names. -/
def Obligations.SpecWordsDecode : Prop :=
  decode [0x71, 0xFE, 0x39, 0x1D, 0x01, 0x08, 0x40, 0x0E, 0xCF, 0x19, 0x40, 0x0E, 0xCF, 0x19] =
    .ok (.setFrequency 433000000 433000000) ∧
  decode [0x71, 0xFE, 0x39, 0x1D, 0x02, 0x01, 0x01] = .ok (.setMode 1) ∧
  decode [0x71, 0xFE, 0x39, 0x1D, 0x03, 0x00] = .ok .flushTxBuffer ∧
  decode [0x71, 0xFE, 0x39, 0x1D, 0x04, 0x02, 0xDE, 0xAD] = .ok (.writeTxData [0xDE, 0xAD]) ∧
  decode [0x71, 0xFE, 0x39, 0x1D, 0x09, 0x01, 0x09] = .ok (.setTxPower 9) ∧
  decode [0x71, 0xFE, 0x39, 0x1D, 0x71, 0x01, 0x71] = .ok (.frameAny 0x71 [0x71]) ∧
  decode [0x71, 0xFE, 0x39, 0x1D, 0x02] = .error .truncatedHeader ∧
  decode [0x71, 0xFE, 0x39, 0x1C, 0x02, 0x00] = .error .badPreamble ∧
  decode [0x71, 0xFE, 0x39, 0x1D, 0x02, 0x01] = .error .truncatedPayload

/-- R100: `ENCODE` is the preamble, the command, the payload's length in one byte and the payload; R101: over 255 bytes it is
refused. -/
def Obligations.EncodeIsPreambleCommandLengthPayload : Prop :=
  ∀ (c : Byte) (p : List Byte),
    (p.length ≤ 255 →
      encodeRequest c p = .ok ([0x71, 0xFE, 0x39, 0x1D] ++ [c] ++ [BitVec.ofNat 8 p.length] ++ p)) ∧
    (255 < p.length → encodeRequest c p = .error .invalidArgument)

/-- R102: the size and the fields of an encoded frame, injectivity, no frame a proper initial part of another, and one way to split
a concatenation of frames. -/
def Obligations.EncodedFramesAreSelfDelimiting : Prop :=
  (∀ (c : Byte) (p e : List Byte), encodeRequest c p = .ok e →
    e.length = 6 + p.length ∧ 6 ≤ e.length ∧ e.length ≤ 261 ∧ e.take 4 = Config.preamble ∧ e[4]? = some c ∧
    e[5]?.map BitVec.toNat = some p.length ∧ ∀ i, i < p.length → e[6 + i]? = p[i]?) ∧
  (∀ (c c' : Byte) (p p' e e' r r' : List Byte), encodeRequest c p = .ok e → encodeRequest c' p' = .ok e' →
    e ++ r = e' ++ r' → c = c' ∧ p = p' ∧ r = r') ∧
  (∀ fs gs : List Frame, (∀ f ∈ fs, f.payload.length ≤ 255) → (∀ g ∈ gs, g.payload.length ≤ 255) →
    fs.flatMap (fun f => frameBytes f.command f.payload) = gs.flatMap (fun g => frameBytes g.command g.payload) →
    fs = gs)

/-! ### The command frames: where each completes, its result and its frame -/

/-- R150: command 1 with 8 payload bytes, `rx` then `tx`, each least significant byte first, is accepted whenever `ENC` is idle. -/
def Obligations.SetFrequencyIsAccepted : Prop :=
  ∀ (rx tx : Word32) (s : State), s.enc.phase = .idle →
    ∃ t, exec (.setFrequency rx tx) s = .next t ∧
      Accepted 0x01 [rx.extractLsb' 0 8, rx.extractLsb' 8 8, rx.extractLsb' 16 8, rx.extractLsb' 24 8,
        tx.extractLsb' 0 8, tx.extractLsb' 8 8, tx.extractLsb' 16 8, tx.extractLsb' 24 8] s t

/-- R151, R156, R157: commands 2, 8 and 9 carry their one byte unchanged and are accepted whenever `ENC` is idle. -/
def Obligations.OneByteCommandsAreAccepted : Prop :=
  ∀ (b : Byte) (s : State), s.enc.phase = .idle →
    (∃ t, exec (.setMode b) s = .next t ∧ Accepted 0x02 [b] s t) ∧
    (∃ t, exec (.greenLedControl b) s = .next t ∧ Accepted 0x08 [b] s t) ∧
    (∃ t, exec (.setTxPower b) s = .next t ∧ Accepted 0x09 [b] s t)

/-- R152, R154, R155, R160: commands 3, 5, 7 and 18 have no payload and are accepted whenever `ENC` is idle. -/
def Obligations.EmptyCommandsAreAccepted : Prop :=
  ∀ s : State, s.enc.phase = .idle →
    (∃ t, exec .flushTxBuffer s = .next t ∧ Accepted 0x03 [] s t) ∧
    (∃ t, exec .watchdogRequest s = .next t ∧ Accepted 0x05 [] s t) ∧
    (∃ t, exec .getReceiveData s = .next t ∧ Accepted 0x07 [] s t) ∧
    (∃ t, exec .getVersion s = .next t ∧ Accepted 0x12 [] s t)

/-- R153, R158, R159, R161, R162: commands 4, 10, 17, 19 and the generic frame carry any payload of at most 255 bytes unchanged
and are accepted whenever `ENC` is idle. -/
def Obligations.VariableCommandsAreAccepted : Prop :=
  ∀ (c : Byte) (p : List Byte) (s : State), p.length ≤ 255 → s.enc.phase = .idle →
    (∃ t, exec (.writeTxData p) s = .next t ∧ Accepted 0x04 p s t) ∧
    (∃ t, exec (.debug p) s = .next t ∧ Accepted 0x0A p s t) ∧
    (∃ t, exec (.setSeed p) s = .next t ∧ Accepted 0x11 p s t) ∧
    (∃ t, exec (.setTxBuffer p) s = .next t ∧ Accepted 0x13 p s t) ∧
    (∃ t, exec (.frameAny c p) s = .next t ∧ Accepted c p s t)

/-- R103, R110: while a frame is in progress a request waits, and nothing changes but that the requester sees it is not
enabled. That the whole `SEND` is one operation which can be met while busy is the model's reading (log entries 3 and 5). -/
def Obligations.RequestWaitsWhileBusy : Prop :=
  ∀ (i : Instr) (s : State), i.WellFormed → s.enc.phase ≠ .idle →
    exec i s = .next { s with answers := s.answers ++ [.notEnabled] }

/-- R101, R181, R182: a payload over 255 bytes is refused in any phase, and nothing changes but that the requester is told. -/
def Obligations.OversizedPayloadIsRefused : Prop :=
  ∀ (c : Byte) (p : List Byte) (s : State), 255 < p.length →
    send c p s = .next { s with answers := s.answers ++ [.refused .invalidArgument] } ∧
    exec (.writeTxData p) s = .next { s with answers := s.answers ++ [.refused .invalidArgument] } ∧
    exec (.debug p) s = .next { s with answers := s.answers ++ [.refused .invalidArgument] } ∧
    exec (.setSeed p) s = .next { s with answers := s.answers ++ [.refused .invalidArgument] } ∧
    exec (.setTxBuffer p) s = .next { s with answers := s.answers ++ [.refused .invalidArgument] } ∧
    exec (.frameAny c p) s = .next { s with answers := s.answers ++ [.refused .invalidArgument] }

/-- The frame of every instruction: it always answers a next state, in which the decoder, the streams, the sink and the offers are
as before, the encoder's registers too unless the request was accepted, and every `TXBUF` cell outside the payload. One instruction is a
`SEND` up to its `ENC_START` (log entry 3). -/
def Obligations.InstructionsChangeOnlyTheEncoder : Prop :=
  ∀ (i : Instr) (s : State), ∃ t a, exec i s = .next t ∧
    t.dec = s.dec ∧ t.frameValid = s.frameValid ∧ t.rx = s.rx ∧ t.tx = s.tx ∧ t.txStart = s.txStart ∧ t.frames = s.frames ∧
    t.samples = s.samples ∧ t.draws = s.draws ∧ t.offers = s.offers ∧ t.answers = s.answers ++ [a] ∧
    (a ≠ .performed → t.enc = s.enc) ∧
    (∀ j, i.payload.length ≤ j → readCell t.enc.txbuf j = readCell s.enc.txbuf j) ∧
    (∀ j, readCell t.dec.rxbuf j = readCell s.dec.rxbuf j)

/-! ### The serializer -/

/-- R111: a frame started in `IDLE` over present cells is sent whole, byte by byte and in order; `tx_last` is 1 at the last byte
only; `ENC` is idle after it and not before; and no `TXBUF` cell changes. -/
def Obligations.StartedFrameIsSentWhole : Prop :=
  ∀ (cfg : Config.Parameters) (c n : Byte) (p : List Byte) (s : State), s.enc.phase = .idle → p.length = n.toNat → s.enc.Holds p →
    ∀ k, k ≤ 6 + p.length → ∃ t : State,
      (machineWith cfg).run k { encStart c n s with offers := List.replicate (6 + p.length) .encEmit } = .next t ∧
      t.tx = s.tx ++ (frameBytes c p).take k ∧ (txLast t = true ↔ k = 5 + p.length) ∧
      (t.enc.phase = .idle ↔ k = 6 + p.length) ∧ t.enc.txbuf = s.enc.txbuf

/-- R103, R111: what goes out on `TX` after an instruction is accepted in `IDLE` is exactly its encoding. -/
def Obligations.AcceptedInstructionIsSentWhole : Prop :=
  ∀ (cfg : Config.Parameters) (i : Instr) (s : State), i.WellFormed → s.enc.phase = .idle →
    ∃ t u : State, exec i s = .next t ∧
      (machineWith cfg).run (encode i).length { t with offers := List.replicate (encode i).length .encEmit } = .next u ∧
      u.tx = s.tx ++ encode i ∧ u.enc.phase = .idle ∧ u.dec = s.dec ∧ u.frames = s.frames

/-- R104: `TXBUF_WRITE` in `IDLE` stores one byte, index 255 is refused, and while busy nothing happens. -/
def Obligations.TxbufWriteStoresOneCell : Prop :=
  ∀ (cfg : Config.Parameters) (i v : Byte) (s : State),
    (s.enc.phase = .idle → i.toNat ≤ 254 →
      ∃ t, runOffer cfg (.txbufWrite i v) s = .next t ∧ readCell t.enc.txbuf i.toNat = some v ∧
        (∀ j, j ≠ i.toNat → readCell t.enc.txbuf j = readCell s.enc.txbuf j) ∧
        t = { s with enc := { s.enc with txbuf := t.enc.txbuf }, answers := s.answers ++ [.performed] }) ∧
    (s.enc.phase = .idle → i = 255 →
      runOffer cfg (.txbufWrite i v) s = .next { s with answers := s.answers ++ [.refused .invalidArgument] }) ∧
    (s.enc.phase ≠ .idle →
      runOffer cfg (.txbufWrite i v) s = .next { s with answers := s.answers ++ [.notEnabled] })

/-- R105: `ENC_START` in `IDLE` latches command and length and goes to `PRE`, with the status outputs the rule gives; while busy
nothing happens. -/
def Obligations.EncStartLatchesTheRequest : Prop :=
  ∀ (cfg : Config.Parameters) (c n : Byte) (s : State),
    (s.enc.phase = .idle →
      ∃ t, runOffer cfg (.encStart c n) s = .next t ∧
        t = { s with
          enc := { s.enc with command := c, length := n, count := 0, phase := .pre },
          answers := s.answers ++ [.performed] } ∧
        encBusy t = true ∧ reqReady t = false ∧ txbufReady t = false ∧ txValid t = true ∧ txData t = 0x71) ∧
    (s.enc.phase ≠ .idle →
      runOffer cfg (.encStart c n) s = .next { s with answers := s.answers ++ [.notEnabled] })

/-- R106: `ENC_EMIT` in `PRE` outputs preamble byte `k` and moves on, to `CMD` after the fourth, with `tx_last = 0`. -/
def Obligations.EmitInPhasePre : Prop :=
  ∀ (cfg : Config.Parameters) (s : State), s.enc.phase = .pre →
    (∀ k b, s.enc.count.toNat = k → Config.preamble[k]? = some b →
      runOffer cfg .encEmit s = .next { s with
        enc := if k = 3 then { s.enc with phase := .cmd, count := 0 } else { s.enc with count := BitVec.ofNat 8 (k + 1) },
        tx := s.tx ++ [b], answers := s.answers ++ [.performed] }) ∧
    txLast s = false

/-- R107: `ENC_EMIT` in `CMD` outputs the command and goes to `LEN`, `enc.count` held and `tx_last = 0`. -/
def Obligations.EmitInPhaseCmd : Prop :=
  ∀ (cfg : Config.Parameters) (s : State), s.enc.phase = .cmd →
    runOffer cfg .encEmit s = .next { s with
      enc := { s.enc with phase := .len }, tx := s.tx ++ [s.enc.command], answers := s.answers ++ [.performed] } ∧
    txLast s = false

/-- R108: `ENC_EMIT` in `LEN` outputs the length, then ends the frame if it is 0 and goes to `PAY` otherwise; `tx_last` is 1 exactly
in the first case. -/
def Obligations.EmitInPhaseLen : Prop :=
  ∀ (cfg : Config.Parameters) (s : State), s.enc.phase = .len →
    ∃ t, runOffer cfg .encEmit s = .next t ∧
      t = { s with
        enc := { s.enc with phase := if s.enc.length = 0 then .idle else .pay },
        tx := s.tx ++ [s.enc.length], answers := s.answers ++ [.performed] } ∧
      (txLast s = true ↔ s.enc.length = 0) ∧
      (s.enc.length = 0 → encBusy t = false ∧ reqReady t = true ∧ txbufReady t = true ∧ txValid t = false)

/-- R109, R217: `ENC_EMIT` in `PAY` outputs `TXBUF[i]` and ends the frame at `i = enc.length - 1`; over an absent cell it is a fault.
The premise `i < enc.length` is R34's. -/
def Obligations.EmitInPhasePay : Prop :=
  ∀ (cfg : Config.Parameters) (s : State), s.enc.phase = .pay → s.enc.count.toNat < s.enc.length.toNat →
    (∀ b, readCell s.enc.txbuf s.enc.count.toNat = some b →
      runOffer cfg .encEmit s = .next { s with
        enc :=
          if s.enc.count.toNat = s.enc.length.toNat - 1 then { s.enc with phase := .idle, count := 0 }
          else { s.enc with count := BitVec.ofNat 8 (s.enc.count.toNat + 1) },
        tx := s.tx ++ [b], answers := s.answers ++ [.performed] }) ∧
    (readCell s.enc.txbuf s.enc.count.toNat = none → runOffer cfg .encEmit s = .fault .absentTxbufCell) ∧
    (txLast s = true ↔ s.enc.count.toNat = s.enc.length.toNat - 1)

/-- R114: `ENC_EMIT` in `IDLE` is not enabled, no byte is on offer and `TX` does not grow. -/
def Obligations.EmitInPhaseIdleIsNotEnabled : Prop :=
  ∀ (cfg : Config.Parameters) (s : State), s.enc.phase = .idle →
    runOffer cfg .encEmit s = .next { s with answers := s.answers ++ [.notEnabled] } ∧ txValid s = false

/-- R38: the byte `ENC_EMIT` appends to `TX` is the one on offer at `tx_data` while `tx_valid = 1`. -/
def Obligations.EmitOutputsTheByteOnOffer : Prop :=
  ∀ (cfg : Config.Parameters) (s t : State), txValid s = true → runOffer cfg .encEmit s = .next t →
    t.tx = s.tx ++ [txData s] ∧ t.dec = s.dec ∧ t.frames = s.frames ∧ t.enc.txbuf = s.enc.txbuf ∧
      t.enc.command = s.enc.command ∧ t.enc.length = s.enc.length

/-! ### The decoder, one phase at a time -/

/-- R121: in `SYNC(k)` the byte `PREAMBLE[k]` advances to `SYNC(k+1)`, or to `READ_COMMAND` after the fourth. -/
def Obligations.SyncMatchAdvances : Prop :=
  ∀ (cfg : Config.Parameters) (b : Byte) (rest : List Offer) (s : State), s.offers = .decStep b :: rest → s.dec.phase = .sync →
    Config.preamble[s.dec.syncIndex.toNat]? = some b →
    ∃ t, stepWith cfg s = .next t ∧ t = { s with
      dec := { s.dec with
        syncIndex := BitVec.ofNat 3 (s.dec.syncIndex.toNat + 1),
        phase := if s.dec.syncIndex.toNat + 1 = 4 then .readCommand else .sync },
      frameValid := false, rx := s.rx ++ [b], answers := [.performed], draws := t.draws, offers := rest }

/-- R122: in `SYNC(k)` any other byte is discarded and `dec.sync_index` is 0, even where the byte is the preamble's first. That in phase
`SYNC` with index 4 to 7, which no run reaches (R22), every byte is such a byte is the model's choice (DESIGN CHOICE, log entry 14). -/
def Obligations.SyncMismatchDiscards : Prop :=
  ∀ (cfg : Config.Parameters) (b : Byte) (rest : List Offer) (s : State), cfg.resyncRetest = false →
    s.offers = .decStep b :: rest → s.dec.phase = .sync →
    Config.preamble[s.dec.syncIndex.toNat]? ≠ some b →
    ∃ t, stepWith cfg s = .next t ∧ t = { s with
      dec := { s.dec with syncIndex := 0 },
      frameValid := false, rx := s.rx ++ [b], answers := [.performed], draws := t.draws, offers := rest }

/-- R124: the two variants differ only for `0x71` in `SYNC(1)`, `SYNC(2)` or `SYNC(3)`, which leaves `SYNC(1)` when it is re-tested. -/
def Obligations.RetestVariantDiffersOnlyAtPreambleStart : Prop :=
  ∀ (b : Byte) (d : Dec), d.Inv →
    (d.phase = .sync ∧ d.syncIndex ≠ 0 ∧ b = 0x71 →
      decStepWith true b d = ({ d with syncIndex := 1 }, none) ∧ decStepWith false b d = ({ d with syncIndex := 0 }, none)) ∧
    (¬(d.phase = .sync ∧ d.syncIndex ≠ 0 ∧ b = 0x71) → decStepWith true b d = decStepWith false b d)

/-- R124: in the build with `RESYNC_RETEST = true` a mismatching byte in `SYNC(k)` is tested as a new start: `dec.sync_index` is 1 where it is
the preamble's first byte and 0 otherwise. That with index 4 to 7, which no run reaches (R22), every byte mismatches is the model's choice
(DESIGN CHOICE, log entry 14). -/
def Obligations.SyncMismatchRetestsTheByte : Prop :=
  ∀ (cfg : Config.Parameters) (b : Byte) (rest : List Offer) (s : State), cfg.resyncRetest = true →
    s.offers = .decStep b :: rest → s.dec.phase = .sync → Config.preamble[s.dec.syncIndex.toNat]? ≠ some b →
    ∃ t, stepWith cfg s = .next t ∧ t = { s with
      dec := { s.dec with syncIndex := if b = 0x71 then 1 else 0 },
      frameValid := false, rx := s.rx ++ [b], answers := [.performed], draws := t.draws, offers := rest }

/-- R127: in `READ_COMMAND` the byte is stored as the pending command. -/
def Obligations.ReadCommandStoresTheByte : Prop :=
  ∀ (cfg : Config.Parameters) (b : Byte) (rest : List Offer) (s : State), s.offers = .decStep b :: rest → s.dec.phase = .readCommand →
    ∃ t, stepWith cfg s = .next t ∧ t = { s with
      dec := { s.dec with pendingCommand := b, phase := .readLength },
      frameValid := false, rx := s.rx ++ [b], answers := [.performed], draws := t.draws, offers := rest }

/-- R128: in `READ_LENGTH` the byte is stored as the pending length; 0 emits the frame at once, any other goes to
`READ_PAYLOAD(0)`. -/
def Obligations.ReadLengthStoresTheByte : Prop :=
  ∀ (cfg : Config.Parameters) (b : Byte) (rest : List Offer) (s : State), s.offers = .decStep b :: rest → s.dec.phase = .readLength →
    (b = 0 → ∃ t, stepWith cfg s = .next t ∧ t = { s with
      dec := { s.dec with pendingLength := b, filledCount := 0, phase := .sync, syncIndex := 0 },
      frameValid := true, frames := s.frames ++ [⟨s.dec.pendingCommand, []⟩],
      rx := s.rx ++ [b], answers := [.performed], draws := t.draws, offers := rest }) ∧
    (b ≠ 0 → ∃ t, stepWith cfg s = .next t ∧ t = { s with
      dec := { s.dec with pendingLength := b, filledCount := 0, phase := .readPayload },
      frameValid := false, rx := s.rx ++ [b], answers := [.performed], draws := t.draws, offers := rest })

/-- R129: in `READ_PAYLOAD(i)`, not the last byte, the byte goes to `RXBUF[i]` and no frame is emitted. -/
def Obligations.ReadPayloadStoresTheByte : Prop :=
  ∀ (cfg : Config.Parameters) (b : Byte) (rest : List Offer) (s : State), s.offers = .decStep b :: rest → s.dec.phase = .readPayload →
    s.dec.Inv → s.dec.filledCount.toNat ≠ s.dec.pendingLength.toNat - 1 →
    ∃ t, stepWith cfg s = .next t ∧
      readCell t.dec.rxbuf s.dec.filledCount.toNat = some b ∧
      (∀ j, j ≠ s.dec.filledCount.toNat → readCell t.dec.rxbuf j = readCell s.dec.rxbuf j) ∧
      t = { s with
        dec := { s.dec with rxbuf := t.dec.rxbuf, filledCount := BitVec.ofNat 8 (s.dec.filledCount.toNat + 1) },
        frameValid := false, rx := s.rx ++ [b], answers := [.performed], draws := t.draws, offers := rest }

/-- R130: the last payload byte is stored, then the frame of the pending command and the updated buffer is emitted; its payload has
`dec.pending_length` bytes, the last of them this byte, and the decoder is in `SYNC(0)`. -/
def Obligations.LastPayloadByteEmitsTheFrame : Prop :=
  ∀ (cfg : Config.Parameters) (b : Byte) (rest : List Offer) (s : State), s.offers = .decStep b :: rest → s.dec.phase = .readPayload →
    s.dec.Inv → s.dec.filledCount.toNat = s.dec.pendingLength.toNat - 1 →
    ∃ (t : State) (p : List Byte), stepWith cfg s = .next t ∧
      p.length = s.dec.pendingLength.toNat ∧ p.getLast? = some b ∧
      (∀ j, j < p.length → readCell t.dec.rxbuf j = p[j]?) ∧
      (∀ j, j ≠ s.dec.filledCount.toNat → readCell t.dec.rxbuf j = readCell s.dec.rxbuf j) ∧
      t = { s with
        dec := { s.dec with
          rxbuf := t.dec.rxbuf, filledCount := s.dec.pendingLength, phase := .sync, syncIndex := 0 },
        frameValid := true, frames := s.frames ++ [⟨s.dec.pendingCommand, p⟩],
        rx := s.rx ++ [b], answers := [.performed], draws := t.draws, offers := rest }

/-- R120, R142: a byte offered to `DEC` is always taken, in every state, and at most one frame is emitted; `ENC` is untouched. R142 says it
of the reachable states; that the others take the byte too is the model's choice (DESIGN CHOICE, log entry 14). -/
def Obligations.DecoderTakesEveryByte : Prop :=
  ∀ (cfg : Config.Parameters) (b : Byte) (rest : List Offer) (s : State), s.offers = .decStep b :: rest →
    ∃ t, stepWith cfg s = .next t ∧ t.rx = s.rx ++ [b] ∧ t.enc = s.enc ∧ t.tx = s.tx ∧ t.samples = s.samples ∧
      (t.frames = s.frames ∧ t.frameValid = false ∨
        ∃ f : Frame, t.frames = s.frames ++ [f] ∧ t.frameValid = true ∧ t.dec.phase = .sync ∧ t.dec.syncIndex = 0)

/-! ### The decoder, over a stream -/

/-- R135: from `SYNC(0)` an encoded frame is decoded to exactly itself and leaves `SYNC(0)`, and so is any sequence of frames, in
both variants. -/
def Obligations.EncodedFramesRoundTrip : Prop :=
  ∀ retest : Bool,
    (∀ (d : Dec) (c : Byte) (p e : List Byte), d.phase = .sync → d.syncIndex = 0 → encodeRequest c p = .ok e →
      ∃ d' : Dec, decRun retest d e = (d', [⟨c, p⟩]) ∧ d'.phase = .sync ∧ d'.syncIndex = 0) ∧
    (∀ fs : List Frame, (∀ f ∈ fs, f.payload.length ≤ 255) →
      decodeStream retest (fs.flatMap fun f => frameBytes f.command f.payload) = fs)

/-- R134: any cutting of the input into chunks gives the frames and the final state of feeding it at once, in both variants and in
the machine. -/
def Obligations.ChunkBoundariesDoNotMatter : Prop :=
  (∀ (retest : Bool) (d : Dec) (chunks : List (List Byte)),
    chunks.foldl (fun r c => ((decRun retest r.1 c).1, r.2 ++ (decRun retest r.1 c).2)) (d, []) =
      decRun retest d chunks.flatten) ∧
  (∀ (cfg : Config.Parameters) (s : State) (chunks : List (List Byte)), ∃ t u : State,
    (machineWith cfg).run chunks.length { s with offers := chunks.map .rxChunk } = .next t ∧
    stepWith cfg { s with offers := [.rxChunk chunks.flatten] } = .next u ∧
    t.dec = u.dec ∧ t.frames = u.frames ∧ t.rx = u.rx ∧ t.enc = u.enc)

/-- R136: noise without the preamble emits nothing and leaves phase `SYNC`; a frame after it is decoded, by the default variant
exactly when the noise left `SYNC(0)` (otherwise it is not among the frames), by the other variant always. -/
def Obligations.FrameAfterNoise : Prop :=
  ∀ (noise p : List Byte) (c : Byte), ¬ Config.preamble <:+: noise → p.length ≤ 255 →
    (∀ retest, (decRun retest Dec.reset noise).2 = [] ∧ (decRun retest Dec.reset noise).1.phase = .sync) ∧
    (decodeStream false (noise ++ frameBytes c p) = [⟨c, p⟩] ↔ (decRun false Dec.reset noise).1.syncIndex = 0) ∧
    ((decRun false Dec.reset noise).1.syncIndex ≠ 0 → ⟨c, p⟩ ∉ decodeStream false (noise ++ frameBytes c p)) ∧
    ((∀ b, noise.getLast? = some b → b ≠ 0x71 ∧ b ≠ 0xFE ∧ b ≠ 0x39) → (decRun false Dec.reset noise).1.syncIndex = 0) ∧
    decodeStream true (noise ++ frameBytes c p) = [⟨c, p⟩]

/-- R211, R189: after a frame is delivered, `frame_cmd` holds through 4 more bytes, `frame_len` through 5, `RXBUF[i]` through
`6 + i`, and no frame is emitted in the next 5. -/
def Obligations.DeliveredFrameStaysReadable : Prop :=
  ∀ (retest : Bool) (d : Dec) (bs : List Byte), d.phase = .sync → d.syncIndex = 0 →
    (bs.length ≤ 4 → (decRun retest d bs).1.pendingCommand = d.pendingCommand) ∧
    (bs.length ≤ 5 → (decRun retest d bs).1.pendingLength = d.pendingLength ∧ (decRun retest d bs).2 = []) ∧
    (∀ i, bs.length ≤ 6 + i → readCell (decRun retest d bs).1.rxbuf i = readCell d.rxbuf i)

/-- R141, R6: a frame emitted after `m` bytes from `SYNC(0)` has a payload of at most `m - 6` bytes, and never over 255. -/
def Obligations.EmittedPayloadFitsTheInput : Prop :=
  ∀ (retest : Bool) (d : Dec) (bs : List Byte) (f : Frame), d.phase = .sync → d.syncIndex = 0 →
    f ∈ (decRun retest d bs).2 → f.payload.length + 6 ≤ bs.length ∧ f.payload.length ≤ 255

/-! ### The machine: reset, steps and invariants -/

/-- R43, R200: `RESET`, as an operation of its own or as `rst = 1` at a clock edge with anything else offered at it, gives both blocks
their reset values in any state and makes every cell absent, and nothing else happens in the step: `TX` does not grow (R203), no frame is
delivered (R202), and the positions of both streams count anew (R50). That the bytes on `TX` and the delivered frames stay recorded is log
entry 11; that a sink's read at such an edge still samples the buffer as it stood before the edge is log entry 17. -/
def Obligations.ResetGivesTheResetValues : Prop :=
  ∀ (cfg : Config.Parameters) (o : Offer) (rest : List Offer) (s : State), s.offers = o :: rest →
    (o = .rst ∨ ∃ p : EdgeIn, o = .edge p ∧ p.rst = true) →
    ∃ t, stepWith cfg s = .next t ∧
      t.dec.phase = .sync ∧ t.dec.syncIndex = 0 ∧ t.dec.pendingCommand = 0 ∧ t.dec.pendingLength = 0 ∧
      t.dec.filledCount = 0 ∧ (∀ j, readCell t.dec.rxbuf j = none) ∧ t.frameValid = false ∧
      t.enc.phase = .idle ∧ t.enc.count = 0 ∧ t.enc.command = 0 ∧ t.enc.length = 0 ∧
      (∀ j, readCell t.enc.txbuf j = none) ∧ reqReady t = true ∧ txValid t = false ∧
      t.dec = State.reset.dec ∧ t.enc = State.reset.enc ∧
      t.tx = s.tx ∧ t.txStart = s.tx.length ∧ t.txSinceReset = [] ∧ t.rx = [] ∧ t.frames = s.frames ∧
      (o = .rst → t.samples = s.samples) ∧ (∀ p : EdgeIn, o = .edge p → SinkTakes p.rxbufRaddr s t)

/-- The frame a requester offers at the head of the offers runs: when its bytes decode and `ENC` is idle, the step is `exec` of the
instruction on the state with that offer taken, `frame_valid` 0 (R42, log entry 12), nobody told anything yet and the model's own draw
counter advanced; for every build, and so for the host's `step`. The list of offers and the counter are the model's choice (log entries 4,
5 and 6). -/
def Obligations.StepRunsTheDecodedInstruction : Prop :=
  ∀ (bytes : List Byte) (i : Instr) (rest : List Offer) (s : State),
    s.offers = .frame bytes :: rest → decode bytes = .ok i → s.enc.phase = .idle →
    (∀ cfg : Config.Parameters,
      stepWith cfg s = exec i { s with offers := rest, answers := [], frameValid := false, draws := s.draws + 1 }) ∧
    step s = exec i { s with offers := rest, answers := [], frameValid := false, draws := s.draws + 1 }

/-- R103, R105, R180, U12: while a frame is in progress requests wait, as many as there are: each stays offered, in its place, and the next
offer that need not wait is performed, on the state with `frame_valid` 0 (R42, log entry 12), nobody told anything yet and the model's own
draw counter advanced (DESIGN CHOICE, log entry 6). The list and its order are the model's choice (log entry 5). -/
def Obligations.WaitingRequestLetsOthersProceed : Prop :=
  ∀ (cfg : Config.Parameters) (ws : List Offer) (o : Offer) (rest : List Offer) (s : State),
    s.offers = ws ++ o :: rest → s.enc.phase ≠ .idle →
    (∀ w ∈ ws, (∃ bytes i, w = .frame bytes ∧ decode bytes = .ok i) ∨ (∃ c p, w = .send c p ∧ p.length ≤ 255) ∨
      (∃ c n, w = .encStart c n) ∨ (∃ op i, w = .call op ∧ expand op = .ok i)) →
    offerWaits s.enc o = false →
    stepWith cfg s =
      runOffer cfg o { s with offers := ws ++ rest, answers := [], frameValid := false, draws := s.draws + 1 }

/-- R198: with nothing offered the blocks hold their state, and `frame_valid` is 0 in the next cycle (R42, log entry 12); the draw counter
that advances is the model's own (log entry 6). -/
def Obligations.NothingOfferedHoldsTheBlocks : Prop :=
  ∀ (cfg : Config.Parameters) (s : State), s.offers = [] →
    stepWith cfg s = .next { s with frameValid := false, answers := [], draws := s.draws + 1 }

/-- R22, R25, R28, R34: every step keeps the invariant of the reachable states. -/
def Obligations.StepKeepsTheInvariant : Prop :=
  ∀ (cfg : Config.Parameters) (s t : State), s.Inv → (machineWith cfg).step s = .next t → t.Inv

/-- R43: the invariants hold after reset. -/
def Obligations.ResetMeetsTheInvariants : Prop :=
  State.reset.Inv ∧ State.reset.enc.PayloadPresent ∧ (∀ cfg, State.reset.DecodesItsInput cfg) ∧
    State.reset.FramedFrom [] ∧ State.reset.quiescent = true

/-- R62, R133: every step keeps the decoder and the frames delivered equal to what `DEC_RUN` makes of the bytes consumed since
`RESET`, which the model records (log entry 11). -/
def Obligations.DecoderStateIsAFunctionOfItsInput : Prop :=
  ∀ (cfg : Config.Parameters) (s t : State), s.DecodesItsInput cfg → (machineWith cfg).step s = .next t → t.DecodesItsInput cfg

/-- R63, R68, R110: every step but a `RESET` keeps `TX` a sequence of whole encoded frames and then the frame in progress, and a
`RESET` starts such a sequence anew behind the bytes already sent (that `TX` keeps them is log entry 11). -/
def Obligations.FramesNeverInterleaveOnTx : Prop :=
  ∀ (cfg : Config.Parameters) (t0 : List Byte) (s t : State), s.Inv → s.FramedFrom t0 → (machineWith cfg).step s = .next t →
    (s.takesReset = false → t.FramedFrom t0 ∧ t.txStart = s.txStart) ∧
    (s.takesReset = true → t.tx = s.tx ∧ t.FramedFrom s.tx ∧ t.txStart = s.tx.length)

/-- R217: where every cell the frame in progress carries is present, no step faults. -/
def Obligations.NoFaultOverPresentPayload : Prop :=
  ∀ (cfg : Config.Parameters) (s : State) (f : Fault), s.Inv → s.enc.PayloadPresent → (machineWith cfg).step s ≠ .fault f

/-- R112, R194: in an endless run of either build whose transport meets its duty, every frame started is finished or cut short by a
`RESET`: from any step on, `ENC` is idle again. The fairness is a premise about the environment. -/
def Obligations.FairTransportLetsEveryFrameEnd : Prop :=
  ∀ (cfg : Config.Parameters) (env : Nat → List Offer) (s : Nat → State),
    EndlessRun cfg env s → FairTransport env s → (s 0).Inv → ∀ n, ∃ m, n ≤ m ∧ (s m).enc.phase = .idle

/-- R50: what stands on `TX` by position since `RESET` only grows at its end in every step that is no `RESET`, and is empty after one
(the record of both is log entry 11). -/
def Obligations.TxPositionsCountFromReset : Prop :=
  ∀ (cfg : Config.Parameters) (s t : State), s.Inv → stepWith cfg s = .next t →
    (s.takesReset = false →
      t.txSinceReset = s.txSinceReset ∨ ∃ b, encOffer s.enc = some b ∧ t.txSinceReset = s.txSinceReset ++ [b]) ∧
    (s.takesReset = true → t.txSinceReset = [])

/-- R103, R217: an instruction leaves every cell its frame carries present, whatever it meets. -/
def Obligations.InstructionsKeepThePayloadPresent : Prop :=
  ∀ (i : Instr) (s t : State), s.enc.PayloadPresent → exec i s = .next t → t.enc.PayloadPresent

/-- R20, R192: a step of `DEC` and a step of `ENC` commute: either order gives the same blocks, streams and frames. -/
def Obligations.DecoderAndEncoderStepsCommute : Prop :=
  ∀ (cfg : Config.Parameters) (b : Byte) (o : Offer) (s t : State),
    (o = .encEmit ∨ (∃ i v, o = .txbufWrite i v) ∨ (∃ c n, o = .encStart c n) ∨ (∃ c p, o = .send c p)) →
    runOffer cfg o s = .next t →
    ∃ u : State, runOffer cfg o (decStep cfg b s) = .next u ∧
      u.dec = (decStep cfg b t).dec ∧ u.enc = (decStep cfg b t).enc ∧ u.rx = (decStep cfg b t).rx ∧ u.tx = (decStep cfg b t).tx ∧
      u.frames = (decStep cfg b t).frames

/-- R116, R183 to R185: a failure of the transport reaches its caller and changes no register, cell or stream of the blocks but
`frame_valid`, which is 0 in the cycle after a step without `emit` (R42, log entry 12). That it is an offer of the environment, and so a
step, is the model's choice (log entry 10). -/
def Obligations.OutsideFailuresLeaveTheBlocksAlone : Prop :=
  ∀ (cfg : Config.Parameters) (k : ErrorKind) (rest : List Offer) (s : State), s.offers = .environmentFailure k :: rest →
    ∃ t, stepWith cfg s = .next t ∧ t = { s with answers := [.failed k], frameValid := false, draws := t.draws, offers := rest }

/-! ### One clock edge -/

/-- R42, R104, R105, R192 (2, 4): at an edge in `IDLE`, whatever is offered at it and whatever `tx_ready` is, a write and a start are both
performed and the frame sees the byte, a write at index 255 is refused, no byte is sent, and `DEC` takes its byte if one is there. The
sink's sample at the edge is that of the buffer before it (log entry 17). -/
def Obligations.WriteAndStartAtOneEdge : Prop :=
  ∀ (cfg : Config.Parameters) (rx : Option Byte) (w r : Option (Byte × Byte)) (ready : Bool) (raddr : Option Byte)
    (rest : List Offer) (s : State),
    s.offers = .edge ⟨false, rx, w, r, ready, raddr⟩ :: rest → s.enc.phase = .idle →
    ∃ t, stepWith cfg s = .next t ∧ DecTakes cfg rx s t ∧ SinkTakes raddr s t ∧ t.tx = s.tx ∧
      (∀ i v, w = some (i, v) → i.toNat ≤ 254 →
        readCell t.enc.txbuf i.toNat = some v ∧
        ∀ j, j ≠ i.toNat → readCell t.enc.txbuf j = readCell s.enc.txbuf j) ∧
      (w = none ∨ (∃ v, w = some (255, v)) → t.enc.txbuf = s.enc.txbuf) ∧
      (∀ v, w = some (255, v) → .refused .invalidArgument ∈ t.answers) ∧
      (∀ c n, r = some (c, n) → t.enc.phase = .pre ∧ t.enc.count = 0 ∧ t.enc.command = c ∧ t.enc.length = n) ∧
      (r = none → t.enc = { s.enc with txbuf := t.enc.txbuf })

/-- R42, R104, R105, R192 (2): at an edge while busy a write and a start do not happen; with `tx_ready = 1` the byte on offer goes out and
the encoder advances, or the step is a fault where the byte's cell is absent (R217); with `tx_ready = 0` the encoder holds. `DEC` takes its
byte at the same edge if one is there. The sink's sample at the edge is that of the buffer before it (log entry 17). -/
def Obligations.BusyEdgeOnlyEmits : Prop :=
  ∀ (cfg : Config.Parameters) (rx : Option Byte) (w r : Option (Byte × Byte)) (ready : Bool) (raddr : Option Byte)
    (rest : List Offer) (s : State),
    s.offers = .edge ⟨false, rx, w, r, ready, raddr⟩ :: rest → s.enc.phase ≠ .idle →
    (∀ b, ready = true → encOffer s.enc = some b →
      ∃ t, stepWith cfg s = .next t ∧ DecTakes cfg rx s t ∧ SinkTakes raddr s t ∧
        t.enc = encAdvance s.enc ∧ t.enc.txbuf = s.enc.txbuf ∧ t.tx = s.tx ++ [b]) ∧
    (ready = true → s.enc.phase = .pay → readCell s.enc.txbuf s.enc.count.toNat = none →
      stepWith cfg s = .fault .absentTxbufCell) ∧
    (ready = false →
      ∃ t, stepWith cfg s = .next t ∧ DecTakes cfg rx s t ∧ SinkTakes raddr s t ∧ t.enc = s.enc ∧ t.tx = s.tx)

/-- R26, R37, R51: the sink samples the cell at `rxbuf_raddr`, or any byte for an absent cell and for index 255; nothing in the
blocks changes. The byte for an absent cell is a free value (log entry 6), and the clause holds for every value of it. -/
def Obligations.SinkSamplesTheBuffer : Prop :=
  ∀ (cfg : Config.Parameters) (a : Byte) (rest : List Offer) (s : State), s.offers = .sinkRead a :: rest →
    ∃ (t : State) (v : Byte), stepWith cfg s = .next t ∧ t.samples = s.samples ++ [v] ∧
      (∀ b, readCell s.dec.rxbuf a.toNat = some b → v = b) ∧ t.dec = s.dec ∧ t.enc = s.enc ∧ t.rx = s.rx ∧ t.tx = s.tx ∧
      t.frames = s.frames ∧ (a = 255 → readCell s.dec.rxbuf a.toNat = none)

/-! ### The facade -/

/-- R165, R166, R168 to R170: the operations without a precondition send their one frame when `ENC` is idle. -/
def Obligations.FacadeOperationsSendTheirFrame : Prop :=
  ∀ (cfg : Config.Parameters) (hz : Word32) (mode : Byte) (s : State), s.enc.phase = .idle →
    (∃ t, runOffer cfg (.call (.setFrequency hz)) s = .next t ∧ Accepted 0x01 (le32 hz ++ le32 hz) s t) ∧
    (∃ t, runOffer cfg (.call (.setMode mode)) s = .next t ∧ Accepted 0x02 [mode] s t) ∧
    (∃ t, runOffer cfg (.call .requestWatchdogMsg) s = .next t ∧ Accepted 0x05 [] s t) ∧
    (∃ t, runOffer cfg (.call .requestReceiveMsg) s = .next t ∧ Accepted 0x07 [] s t) ∧
    (∃ t, runOffer cfg (.call .flush) s = .next t ∧ Accepted 0x03 [] s t)

/-- R167: `setTxPower` sends level 0 to 9 and refuses every other integer with nothing sent. -/
def Obligations.SetTxPowerChecksItsRange : Prop :=
  ∀ (cfg : Config.Parameters) (level : Int) (s : State),
    (0 ≤ level → level ≤ 9 → s.enc.phase = .idle →
      ∃ t, runOffer cfg (.call (.setTxPower level)) s = .next t ∧ Accepted 0x09 [BitVec.ofInt 8 level] s t) ∧
    (level < 0 ∨ 9 < level →
      runOffer cfg (.call (.setTxPower level)) s = .next { s with answers := s.answers ++ [.refused .invalidArgument] })

/-- R171: `transmit` sends a buffer of 1 to 245 bytes and refuses an empty one, a longer one and none at all, with nothing sent. -/
def Obligations.TransmitChecksItsBuffer : Prop :=
  ∀ (cfg : Config.Parameters) (buffer : List Byte) (s : State),
    (1 ≤ buffer.length → buffer.length ≤ 245 → s.enc.phase = .idle →
      ∃ t, runOffer cfg (.call (.transmit (some buffer))) s = .next t ∧ Accepted 0x04 buffer s t) ∧
    (buffer.length = 0 ∨ 245 < buffer.length →
      runOffer cfg (.call (.transmit (some buffer))) s = .next { s with answers := s.answers ++ [.refused .invalidArgument] }) ∧
    runOffer cfg (.call (.transmit none)) s = .next { s with answers := s.answers ++ [.refused .invalidArgument] }
end

