-- ==== Sys2Proof/Laws/State.lean ====
section
/-! SUPPORT. One lemma per field for each shared operation that updates the state, so that no proof unfolds a record update. -/

namespace Sys2Proof.Machine

@[simp] theorem reply_dec (a : Answer) (s : State) : (reply a s).dec = s.dec := rfl
@[simp] theorem reply_enc (a : Answer) (s : State) : (reply a s).enc = s.enc := rfl
@[simp] theorem reply_frameValid (a : Answer) (s : State) : (reply a s).frameValid = s.frameValid := rfl
@[simp] theorem reply_rx (a : Answer) (s : State) : (reply a s).rx = s.rx := rfl
@[simp] theorem reply_tx (a : Answer) (s : State) : (reply a s).tx = s.tx := rfl
@[simp] theorem reply_txStart (a : Answer) (s : State) : (reply a s).txStart = s.txStart := rfl
@[simp] theorem reply_frames (a : Answer) (s : State) : (reply a s).frames = s.frames := rfl
@[simp] theorem reply_samples (a : Answer) (s : State) : (reply a s).samples = s.samples := rfl
@[simp] theorem reply_answers (a : Answer) (s : State) : (reply a s).answers = s.answers ++ [a] := rfl
@[simp] theorem reply_draws (a : Answer) (s : State) : (reply a s).draws = s.draws := rfl
@[simp] theorem reply_offers (a : Answer) (s : State) : (reply a s).offers = s.offers := rfl

@[simp] theorem outByte_dec (b : Byte) (s : State) : (outByte b s).dec = s.dec := rfl
@[simp] theorem outByte_enc (b : Byte) (s : State) : (outByte b s).enc = s.enc := rfl
@[simp] theorem outByte_frameValid (b : Byte) (s : State) : (outByte b s).frameValid = s.frameValid := rfl
@[simp] theorem outByte_rx (b : Byte) (s : State) : (outByte b s).rx = s.rx := rfl
@[simp] theorem outByte_tx (b : Byte) (s : State) : (outByte b s).tx = s.tx ++ [b] := rfl
@[simp] theorem outByte_txStart (b : Byte) (s : State) : (outByte b s).txStart = s.txStart := rfl
@[simp] theorem outByte_frames (b : Byte) (s : State) : (outByte b s).frames = s.frames := rfl
@[simp] theorem outByte_samples (b : Byte) (s : State) : (outByte b s).samples = s.samples := rfl
@[simp] theorem outByte_answers (b : Byte) (s : State) : (outByte b s).answers = s.answers := rfl
@[simp] theorem outByte_draws (b : Byte) (s : State) : (outByte b s).draws = s.draws := rfl
@[simp] theorem outByte_offers (b : Byte) (s : State) : (outByte b s).offers = s.offers := rfl

@[simp] theorem sample_dec (b : Byte) (s : State) : (sample b s).dec = s.dec := rfl
@[simp] theorem sample_enc (b : Byte) (s : State) : (sample b s).enc = s.enc := rfl
@[simp] theorem sample_frameValid (b : Byte) (s : State) : (sample b s).frameValid = s.frameValid := rfl
@[simp] theorem sample_rx (b : Byte) (s : State) : (sample b s).rx = s.rx := rfl
@[simp] theorem sample_tx (b : Byte) (s : State) : (sample b s).tx = s.tx := rfl
@[simp] theorem sample_txStart (b : Byte) (s : State) : (sample b s).txStart = s.txStart := rfl
@[simp] theorem sample_frames (b : Byte) (s : State) : (sample b s).frames = s.frames := rfl
@[simp] theorem sample_samples (b : Byte) (s : State) : (sample b s).samples = s.samples ++ [b] := rfl
@[simp] theorem sample_answers (b : Byte) (s : State) : (sample b s).answers = s.answers := rfl
@[simp] theorem sample_draws (b : Byte) (s : State) : (sample b s).draws = s.draws := rfl
@[simp] theorem sample_offers (b : Byte) (s : State) : (sample b s).offers = s.offers := rfl

@[simp] theorem deliver_dec (f : Option Frame) (s : State) : (deliver f s).dec = s.dec := by cases f <;> rfl
@[simp] theorem deliver_enc (f : Option Frame) (s : State) : (deliver f s).enc = s.enc := by cases f <;> rfl
@[simp] theorem deliver_rx (f : Option Frame) (s : State) : (deliver f s).rx = s.rx := by cases f <;> rfl
@[simp] theorem deliver_tx (f : Option Frame) (s : State) : (deliver f s).tx = s.tx := by cases f <;> rfl
@[simp] theorem deliver_txStart (f : Option Frame) (s : State) : (deliver f s).txStart = s.txStart := by cases f <;> rfl
@[simp] theorem deliver_samples (f : Option Frame) (s : State) : (deliver f s).samples = s.samples := by cases f <;> rfl
@[simp] theorem deliver_answers (f : Option Frame) (s : State) : (deliver f s).answers = s.answers := by cases f <;> rfl
@[simp] theorem deliver_draws (f : Option Frame) (s : State) : (deliver f s).draws = s.draws := by cases f <;> rfl
@[simp] theorem deliver_offers (f : Option Frame) (s : State) : (deliver f s).offers = s.offers := by cases f <;> rfl
@[simp] theorem deliver_frames (f : Option Frame) (s : State) : (deliver f s).frames = s.frames ++ f.toList := by
  cases f <;> simp [deliver]
@[simp] theorem deliver_frameValid (f : Option Frame) (s : State) : (deliver f s).frameValid = f.isSome := by
  cases f <;> rfl

@[simp] theorem resetBlocks_dec (s : State) : (resetBlocks s).dec = Dec.reset := rfl
@[simp] theorem resetBlocks_enc (s : State) : (resetBlocks s).enc = Enc.reset := rfl
@[simp] theorem resetBlocks_frameValid (s : State) : (resetBlocks s).frameValid = false := rfl
@[simp] theorem resetBlocks_rx (s : State) : (resetBlocks s).rx = [] := rfl
@[simp] theorem resetBlocks_tx (s : State) : (resetBlocks s).tx = s.tx := rfl
@[simp] theorem resetBlocks_txStart (s : State) : (resetBlocks s).txStart = s.tx.length := rfl
@[simp] theorem resetBlocks_frames (s : State) : (resetBlocks s).frames = s.frames := rfl
@[simp] theorem resetBlocks_samples (s : State) : (resetBlocks s).samples = s.samples := rfl
@[simp] theorem resetBlocks_answers (s : State) : (resetBlocks s).answers = s.answers ++ [.performed] := rfl
@[simp] theorem resetBlocks_draws (s : State) : (resetBlocks s).draws = s.draws := rfl
@[simp] theorem resetBlocks_offers (s : State) : (resetBlocks s).offers = s.offers := rfl

@[simp] theorem beginStep_dec (r : List Offer) (s : State) : (beginStep r s).dec = s.dec := rfl
@[simp] theorem beginStep_enc (r : List Offer) (s : State) : (beginStep r s).enc = s.enc := rfl
@[simp] theorem beginStep_frameValid (r : List Offer) (s : State) : (beginStep r s).frameValid = false := rfl
@[simp] theorem beginStep_rx (r : List Offer) (s : State) : (beginStep r s).rx = s.rx := rfl
@[simp] theorem beginStep_tx (r : List Offer) (s : State) : (beginStep r s).tx = s.tx := rfl
@[simp] theorem beginStep_txStart (r : List Offer) (s : State) : (beginStep r s).txStart = s.txStart := rfl
@[simp] theorem beginStep_frames (r : List Offer) (s : State) : (beginStep r s).frames = s.frames := rfl
@[simp] theorem beginStep_samples (r : List Offer) (s : State) : (beginStep r s).samples = s.samples := rfl
@[simp] theorem beginStep_answers (r : List Offer) (s : State) : (beginStep r s).answers = [] := rfl
@[simp] theorem beginStep_draws (r : List Offer) (s : State) : (beginStep r s).draws = s.draws + 1 := rfl
@[simp] theorem beginStep_offers (r : List Offer) (s : State) : (beginStep r s).offers = r := rfl

@[simp] theorem encStore_phase (i : Nat) (v : Byte) (e : Enc) : (encStore i v e).phase = e.phase := rfl
@[simp] theorem encStore_count (i : Nat) (v : Byte) (e : Enc) : (encStore i v e).count = e.count := rfl
@[simp] theorem encStore_command (i : Nat) (v : Byte) (e : Enc) : (encStore i v e).command = e.command := rfl
@[simp] theorem encStore_length (i : Nat) (v : Byte) (e : Enc) : (encStore i v e).length = e.length := rfl
@[simp] theorem encStore_txbuf (i : Nat) (v : Byte) (e : Enc) :
    (encStore i v e).txbuf = writeCell e.txbuf i v := rfl

@[simp] theorem encLatch_phase (c n : Byte) (e : Enc) : (encLatch c n e).phase = .pre := rfl
@[simp] theorem encLatch_count (c n : Byte) (e : Enc) : (encLatch c n e).count = 0 := rfl
@[simp] theorem encLatch_command (c n : Byte) (e : Enc) : (encLatch c n e).command = c := rfl
@[simp] theorem encLatch_length (c n : Byte) (e : Enc) : (encLatch c n e).length = n := rfl
@[simp] theorem encLatch_txbuf (c n : Byte) (e : Enc) : (encLatch c n e).txbuf = e.txbuf := rfl

/-- `ENC_EMIT` writes no cell and neither latched register. -/
@[simp] theorem encAdvance_txbuf (e : Enc) : (encAdvance e).txbuf = e.txbuf := by
  unfold encAdvance; split <;> (try split) <;> rfl
@[simp] theorem encAdvance_command (e : Enc) : (encAdvance e).command = e.command := by
  unfold encAdvance; split <;> (try split) <;> rfl
@[simp] theorem encAdvance_length (e : Enc) : (encAdvance e).length = e.length := by
  unfold encAdvance; split <;> (try split) <;> rfl

end Sys2Proof.Machine
end

