-- ==== Sys2Proof/Laws/Codec.lean ====
section
/-! SUPPORT. The codec's small lemmas: `le32` is inverted by `ofLe32`, and the front of an encoded frame splits off. -/

namespace Sys2Proof

/-- `le32` loses no bit of the value. -/
theorem ofLe32_extract (v : Word32) :
    ofLe32 (v.extractLsb' 0 8) (v.extractLsb' 8 8) (v.extractLsb' 16 8) (v.extractLsb' 24 8) = v := by
  apply BitVec.eq_of_toNat_eq
  have := v.isLt
  simp only [ofLe32, BitVec.extractLsb'_toNat, BitVec.toNat_ofNat, Nat.shiftRight_eq_div_pow]
  omega

/-- Every four bytes are the `le32` of a value. -/
theorem le32_ofLe32 (b0 b1 b2 b3 : Byte) : le32 (ofLe32 b0 b1 b2 b3) = [b0, b1, b2, b3] := by
  have h0 := b0.isLt
  have h1 := b1.isLt
  have h2 := b2.isLt
  have h3 := b3.isLt
  simp only [le32, List.cons.injEq, and_true]
  refine ⟨?_, ?_, ?_, ?_⟩ <;> apply BitVec.eq_of_toNat_eq <;>
    simp only [ofLe32, BitVec.extractLsb'_toNat, BitVec.toNat_ofNat, Nat.shiftRight_eq_div_pow] <;> omega

@[simp] theorem preamble_length : Config.preamble.length = 4 := rfl

@[simp] theorem frameBytes_length (c : Byte) (p : List Byte) : (frameBytes c p).length = 6 + p.length := by
  simp [frameBytes]; omega

theorem frameBytes_eq (c : Byte) (p : List Byte) :
    frameBytes c p = 0x71 :: 0xFE :: 0x39 :: 0x1D :: c :: BitVec.ofNat 8 p.length :: p := rfl

/-- A length of at most 255 fits the length byte. -/
theorem toNat_ofNat_length {n : Nat} (h : n ≤ 255) : (BitVec.ofNat 8 n).toNat = n := by
  simp; omega

/-- The frame at the front of an encoding and what follows it. -/
theorem splitFrame_frameBytes (c : Byte) (p r : List Byte) (h : p.length ≤ 255) :
    splitFrame (frameBytes c p ++ r) = .ok (⟨c, p⟩, r) := by
  rw [frameBytes_eq]
  simp only [List.cons_append, splitFrame, toNat_ofNat_length h]
  simp [Config.preamble]

/-- A byte sequence whose front splits off is that frame's encoding and the rest. -/
theorem splitFrame_ok {bs r : List Byte} {f : Frame} (h : splitFrame bs = .ok (f, r)) :
    bs = frameBytes f.command f.payload ++ r ∧ f.payload.length ≤ 255 := by
  unfold splitFrame at h
  split at h
  · next p0 p1 p2 p3 c n rest =>
    split at h
    · next hp =>
      split at h
      · next hn =>
        simp only [Except.ok.injEq, Prod.mk.injEq] at h
        obtain ⟨rfl, rfl⟩ := h
        have hl : (rest.take n.toNat).length = n.toNat := by simp [hn]
        have hn' := n.isLt
        simp only [Config.preamble, List.cons.injEq, and_true] at hp
        obtain ⟨rfl, rfl, rfl, rfl⟩ := hp
        refine ⟨?_, by simp only [hl]; omega⟩
        simp only [frameBytes_eq, hl]
        simp
      · cases h
    · cases h
  · cases h

/-- What an `emptyRow` answers. -/
theorem emptyRow_cases (i : Instr) (c : Byte) (p : List Byte) :
    (p = [] ∧ emptyRow i c p = i) ∨ (p ≠ [] ∧ emptyRow i c p = .frameAny c p) := by
  cases p <;> simp [emptyRow]

/-- What a `oneByteRow` answers. -/
theorem oneByteRow_cases (i : Byte → Instr) (c : Byte) (p : List Byte) :
    (∃ b, p = [b] ∧ oneByteRow i c p = i b) ∨ (p.length ≠ 1 ∧ oneByteRow i c p = .frameAny c p) := by
  rcases p with _ | ⟨b, _ | ⟨b', p⟩⟩ <;> simp [oneByteRow]

/-- What a `twoWordRow` answers. -/
theorem twoWordRow_cases (i : Word32 → Word32 → Instr) (c : Byte) (p : List Byte) :
    (∃ v w, p = le32 v ++ le32 w ∧ twoWordRow i c p = i v w) ∨
      (p.length ≠ 8 ∧ twoWordRow i c p = .frameAny c p) := by
  by_cases h : p.length = 8
  · left
    match p, h with
    | [a0, a1, a2, a3, b0, b1, b2, b3], _ =>
      exact ⟨ofLe32 a0 a1 a2 a3, ofLe32 b0 b1 b2 b3, by simp [le32_ofLe32], rfl⟩
  · right
    refine ⟨h, ?_⟩
    unfold twoWordRow
    split
    · simp at h
    · rfl

/-- Everything `instrOfFrame` can answer, one case a row. -/
theorem instrOfFrame_cases {P : Instr → Prop} (f : Frame)
    (h1 : f.command = 1 → P (twoWordRow .setFrequency f.command f.payload))
    (h2 : f.command = 2 → P (oneByteRow .setMode f.command f.payload))
    (h3 : f.command = 3 → P (emptyRow .flushTxBuffer f.command f.payload))
    (h4 : f.command = 4 → P (.writeTxData f.payload))
    (h5 : f.command = 5 → P (emptyRow .watchdogRequest f.command f.payload))
    (h7 : f.command = 7 → P (emptyRow .getReceiveData f.command f.payload))
    (h8 : f.command = 8 → P (oneByteRow .greenLedControl f.command f.payload))
    (h9 : f.command = 9 → P (oneByteRow .setTxPower f.command f.payload))
    (h10 : f.command = 10 → P (.debug f.payload))
    (h17 : f.command = 17 → P (.setSeed f.payload))
    (h18 : f.command = 18 → P (emptyRow .getVersion f.command f.payload))
    (h19 : f.command = 19 → P (.setTxBuffer f.payload))
    (hx : f.command ∉ [1, 2, 3, 4, 5, 7, 8, 9, 10, 17, 18, 19] → P (.frameAny f.command f.payload)) :
    P (instrOfFrame f) := by
  unfold instrOfFrame
  refine iteInduction h1 fun n1 => iteInduction h2 fun n2 => iteInduction h3 fun n3 => iteInduction h4 fun n4 =>
    iteInduction h5 fun n5 => iteInduction h7 fun n7 => iteInduction h8 fun n8 => iteInduction h9 fun n9 =>
    iteInduction h10 fun n10 => iteInduction h17 fun n17 => iteInduction h18 fun n18 =>
    iteInduction h19 fun n19 => hx ?_
  simp only [List.mem_cons, List.not_mem_nil, or_false, not_or]
  exact ⟨n1, n2, n3, n4, n5, n7, n8, n9, n10, n17, n18, n19⟩

/-- The decoder keeps a frame's command. -/
@[simp] theorem instrOfFrame_command (f : Frame) : (instrOfFrame f).command = f.command := by
  refine instrOfFrame_cases (P := fun i => i.command = f.command) f ?_ ?_ ?_ ?_ ?_ ?_ ?_ ?_ ?_ ?_ ?_ ?_ ?_ <;> intro hc
  case refine_1 => rcases twoWordRow_cases .setFrequency f.command f.payload with ⟨v, w, -, h⟩ | ⟨-, h⟩ <;> rw [h] <;>
    first | rfl | exact hc.symm
  case refine_4 | refine_9 | refine_10 | refine_12 => exact hc.symm
  case refine_13 => rfl
  all_goals first
    | (rcases emptyRow_cases _ f.command f.payload with ⟨-, h⟩ | ⟨-, h⟩ <;> rw [h] <;> first | rfl | exact hc.symm)
    | (rcases oneByteRow_cases _ f.command f.payload with ⟨b, -, h⟩ | ⟨-, h⟩ <;> rw [h] <;> first | rfl | exact hc.symm)

/-- The decoder keeps a frame's payload. -/
@[simp] theorem instrOfFrame_payload (f : Frame) : (instrOfFrame f).payload = f.payload := by
  refine instrOfFrame_cases (P := fun i => i.payload = f.payload) f ?_ ?_ ?_ ?_ ?_ ?_ ?_ ?_ ?_ ?_ ?_ ?_ ?_ <;> intro hc
  case refine_1 => rcases twoWordRow_cases .setFrequency f.command f.payload with ⟨v, w, h', h⟩ | ⟨-, h⟩ <;> rw [h] <;>
    first | rfl | exact h'.symm
  case refine_4 | refine_9 | refine_10 | refine_12 | refine_13 => rfl
  all_goals first
    | (rcases emptyRow_cases _ f.command f.payload with ⟨h', h⟩ | ⟨-, h⟩ <;> rw [h] <;> first | rfl | exact h'.symm)
    | (rcases oneByteRow_cases _ f.command f.payload with ⟨b, h', h⟩ | ⟨-, h⟩ <;> rw [h] <;> first | rfl | exact h'.symm)

/-- A well-formed instruction's payload fits the length byte. -/
theorem Instr.WellFormed.payload_length {i : Instr} (h : i.WellFormed) : i.payload.length ≤ 255 := by
  cases i with
  | writeTxData p => exact of_decide_eq_true h
  | debug p => exact of_decide_eq_true h
  | setSeed p => exact of_decide_eq_true h
  | setTxBuffer p => exact of_decide_eq_true h
  | frameAny c p => exact of_decide_eq_true ((Bool.and_eq_true _ _).mp h).1
  | _ => simp [Instr.payload, le32]

/-! ### The header as the table numbers it -/

theorem header_toNat (c n : Byte) : (header c n).toNat = 0x71FE391D0000 + c.toNat * 256 + n.toNat := by
  have hn := n.isLt
  have hc := c.isLt
  simp only [header, BitVec.toNat_append]
  rw [← Nat.shiftLeft_add_eq_or_of_lt hn, ← Nat.shiftLeft_add_eq_or_of_lt hc]
  rw [show (0x71FE391D : BitVec 32).toNat = 0x71FE391D by decide]
  simp only [Nat.shiftLeft_eq]
  omega

/-- A header holds its command and its length. -/
theorem header_inj {c n c' n' : Byte} (h : header c n = header c' n') : c = c' ∧ n = n' := by
  have := congrArg BitVec.toNat h
  have hn := n.isLt
  have hn' := n'.isLt
  simp only [header_toNat] at this
  constructor <;> apply BitVec.eq_of_toNat_eq <;> omega

/-- A mask of all ones compares the whole header. -/
theorem header_full (c n : Byte) : header c n &&& 0xFFFFFFFFFFFF = header c n := by
  rw [show (0xFFFFFFFFFFFF : BitVec 48) = BitVec.allOnes 48 by decide, BitVec.and_allOnes]

/-- A mask over preamble and command drops the length. -/
theorem header_command (c n : Byte) : header c n &&& 0xFFFFFFFFFF00 = header c 0 := by
  rw [show (0xFFFFFFFFFF00 : BitVec 48) = (BitVec.allOnes 32 ++ BitVec.allOnes 8) ++ (0 : BitVec 8) by decide, header,
    BitVec.and_append, BitVec.and_append, BitVec.and_allOnes, BitVec.and_allOnes, header]
  congr 1
  simp

/-- A mask over the preamble alone drops both. -/
theorem header_preamble (c n : Byte) : header c n &&& 0xFFFFFFFF0000 = header 0 0 := by
  rw [show (0xFFFFFFFF0000 : BitVec 48) = (BitVec.allOnes 32 ++ (0 : BitVec 8)) ++ (0 : BitVec 8) by decide, header,
    BitVec.and_append, BitVec.and_append, BitVec.and_allOnes, header]
  congr 1
  · congr 1; simp
  · simp

/-- The first row a header selects, in terms of its command and length. -/
theorem rowOfHeader_header (c n : Byte) :
    rowOfHeader (header c n) =
      if header c n = header 1 8 then some "SET_FREQUENCY" else if header c n = header 2 1 then some "SET_MODE"
      else if header c n = header 3 0 then some "FLUSH_TX_BUFFER" else if header c 0 = header 4 0 then some "WRITE_TX_DATA"
      else if header c n = header 5 0 then some "WATCHDOG_REQUEST" else if header c n = header 7 0 then some "GET_RECEIVE_DATA"
      else if header c n = header 8 1 then some "GREEN_LED_CONTROL" else if header c n = header 9 1 then some "SET_TX_POWER"
      else if header c 0 = header 10 0 then some "DEBUG" else if header c 0 = header 17 0 then some "SET_SEED"
      else if header c n = header 18 0 then some "GET_VERSION" else if header c 0 = header 19 0 then some "SET_TX_BUFFER"
      else some "FRAME_ANY" := by
  have table : opcodeTable =
      [⟨"SET_FREQUENCY", header 1 8, 0xFFFFFFFFFFFF⟩, ⟨"SET_MODE", header 2 1, 0xFFFFFFFFFFFF⟩,
       ⟨"FLUSH_TX_BUFFER", header 3 0, 0xFFFFFFFFFFFF⟩, ⟨"WRITE_TX_DATA", header 4 0, 0xFFFFFFFFFF00⟩,
       ⟨"WATCHDOG_REQUEST", header 5 0, 0xFFFFFFFFFFFF⟩, ⟨"GET_RECEIVE_DATA", header 7 0, 0xFFFFFFFFFFFF⟩,
       ⟨"GREEN_LED_CONTROL", header 8 1, 0xFFFFFFFFFFFF⟩, ⟨"SET_TX_POWER", header 9 1, 0xFFFFFFFFFFFF⟩,
       ⟨"DEBUG", header 10 0, 0xFFFFFFFFFF00⟩, ⟨"SET_SEED", header 17 0, 0xFFFFFFFFFF00⟩,
       ⟨"GET_VERSION", header 18 0, 0xFFFFFFFFFFFF⟩, ⟨"SET_TX_BUFFER", header 19 0, 0xFFFFFFFFFF00⟩,
       ⟨"FRAME_ANY", header 0 0, 0xFFFFFFFF0000⟩] := by decide
  have cons : ∀ (r : OpcodeRow) (l : List OpcodeRow) (p : OpcodeRow → Bool),
      ((r :: l).find? p).map OpcodeRow.mnemonic =
        if p r = true then some r.mnemonic else (l.find? p).map OpcodeRow.mnemonic := by
    intro r l p
    cases h : p r <;> simp [List.find?, h]
  rw [rowOfHeader, table]
  simp only [cons, header_full, header_command, header_preamble, beq_iff_eq, if_true]

end Sys2Proof
end

