-- ==== Sys2Proof/Laws/Memory.lean ====
section
/-! SUPPORT. The laws of a payload buffer: a read after a write, the cells a write leaves alone, and that the canonical form is
kept by every operation on a buffer. -/

namespace Sys2Proof.Machine

/-- `putCell` hits the index it writes, in any list. -/
theorem findCell_putCell_self (i : Nat) (v : Byte) (cs : List Host.Cell) : findCell i (putCell i v cs) = some v := by
  induction cs with
  | nil => simp [putCell, findCell]
  | cons c cs ih =>
    obtain ⟨a, w⟩ := c
    simp only [putCell]
    split
    · simp [findCell]
    · split
      · simp [findCell]
      · rename_i h; simp [findCell, ih, eq_comm, h]

/-- `putCell` leaves every other index alone, in any list. -/
theorem findCell_putCell_other {i j : Nat} (v : Byte) (cs : List Host.Cell) (h : j ≠ i) :
    findCell j (putCell i v cs) = findCell j cs := by
  induction cs with
  | nil => simp [putCell, findCell, h.symm]
  | cons c cs ih =>
    obtain ⟨a, w⟩ := c
    simp only [putCell]
    split
    · simp [findCell, h.symm]
    · split
      · subst_vars; simp [findCell, h.symm]
      · simp [findCell, ih]

/-- A read of the cell written gives the byte written. -/
theorem readCell_writeCell_self (m : Memory) {i : Nat} (v : Byte) (h : i < 255) :
    readCell (writeCell m i v) i = some v := by
  simp [readCell, writeCell, Config.bufCap, h, findCell_putCell_self]

/-- A write leaves every other cell alone. -/
theorem readCell_writeCell_other (m : Memory) {i j : Nat} (v : Byte) (h : j ≠ i) :
    readCell (writeCell m i v) j = readCell m j := by
  unfold readCell writeCell
  by_cases hj : j < Config.bufCap <;> by_cases hi : i < Config.bufCap <;> simp [hi, hj, findCell_putCell_other v _ h]

/-- Index 255 and above do not exist. -/
theorem readCell_of_le (m : Memory) {i : Nat} (h : 255 ≤ i) : readCell m i = none := by
  simp [readCell, Config.bufCap, Nat.not_lt.mpr h]

@[simp] theorem readCell_absent (i : Nat) : readCell Memory.absent i = none := by
  simp [readCell, Memory.absent, findCell]

/-- A cell once written stays present. -/
theorem readCell_writeCell_isSome (m : Memory) (i j : Nat) (v : Byte) (h : (readCell m j).isSome) :
    (readCell (writeCell m i v) j).isSome := by
  by_cases hj : j = i
  · subst hj
    by_cases h' : j < 255
    · simp [readCell_writeCell_self m v h']
    · simp [readCell_of_le m (by omega : 255 ≤ j)] at h
  · rwa [readCell_writeCell_other m v hj]

theorem putCell_rising {lo i : Nat} (v : Byte) (cs : List Host.Cell) (h : Memory.risingFrom lo cs = true)
    (hlo : lo ≤ i) (hi : i < 255) : Memory.risingFrom lo (putCell i v cs) = true := by
  induction cs generalizing lo with
  | nil => simp [putCell, Memory.risingFrom, Config.bufCap, hlo, hi]
  | cons c cs ih =>
    obtain ⟨a, w⟩ := c
    simp only [Memory.risingFrom, Bool.and_eq_true, decide_eq_true_eq] at h
    simp only [putCell]
    split
    · simp_all [Memory.risingFrom, Config.bufCap]
    · split
      · subst_vars; simp_all [Memory.risingFrom, Config.bufCap]
      · simp only [Memory.risingFrom, Bool.and_eq_true, decide_eq_true_eq]
        exact ⟨h.1, ih h.2 (by omega)⟩

/-- A write keeps the canonical form. -/
theorem writeCell_wf (m : Memory) (i : Nat) (v : Byte) (h : m.wf = true) : (writeCell m i v).wf = true := by
  unfold writeCell
  split
  · next hi => exact putCell_rising v m.cells h (Nat.zero_le _) hi
  · exact h

@[simp] theorem absent_wf : Memory.absent.wf = true := rfl

/-- Loading a payload keeps the canonical form. -/
theorem encLoad_wf (vs : List Byte) (i : Nat) (e : Enc) (h : e.txbuf.wf = true) : (encLoad i vs e).txbuf.wf = true := by
  induction vs generalizing i e with
  | nil => exact h
  | cons v vs ih => exact ih (i + 1) _ (writeCell_wf _ _ _ h)

end Sys2Proof.Machine
end

