-- ==== Sys2Proof/Laws/Decoder.lean ====
section
/-! SUPPORT. One lemma per operation of `DEC`: everything a `DEC_STEP` can do, and how `DEC_RUN` splits over its input. -/

namespace Sys2Proof.Machine

@[simp] theorem readCells_length (m : Memory) (n : Nat) : (readCells m n).length = n := by simp [readCells]

/-- Where the cells are present, the copy `emit` makes is the cells. -/
theorem readCells_getElem? (m : Memory) (n j : Nat) (hj : j < n) (h : (readCell m j).isSome) :
    (readCells m n)[j]? = readCell m j := by
  obtain ⟨b, hb⟩ := Option.isSome_iff_exists.mp h
  simp [readCells, hj, hb]

/-! ### One step, phase by phase -/

theorem decStepWith_sync (r : Bool) (b : Byte) {d : Dec} (h : d.phase = .sync) :
    decStepWith r b d = (decSync r b d, none) := by simp [decStepWith, h]

theorem decStepWith_readCommand (r : Bool) (b : Byte) {d : Dec} (h : d.phase = .readCommand) :
    decStepWith r b d = ({ d with pendingCommand := b, phase := .readLength }, none) := by
  simp [decStepWith, h, decReadCommand]

theorem decStepWith_readLength (r : Bool) (b : Byte) {d : Dec} (h : d.phase = .readLength) :
    decStepWith r b d = decReadLength b d := by simp [decStepWith, h]

theorem decStepWith_readPayload (r : Bool) (b : Byte) {d : Dec} (h : d.phase = .readPayload) :
    decStepWith r b d = decReadPayload b d := by simp [decStepWith, h]

/-- A step that emits leaves `SYNC(0)`. -/
theorem decStepWith_emits {r : Bool} {b : Byte} {d : Dec} {f : Frame} (h : (decStepWith r b d).2 = some f) :
    (decStepWith r b d).1.phase = .sync ∧ (decStepWith r b d).1.syncIndex = 0 := by
  unfold decStepWith decReadLength decReadPayload at *
  split at h <;> simp_all <;> split at h <;> simp_all

/-! ### Runs -/

@[simp] theorem decRun_nil (r : Bool) (d : Dec) : decRun r d [] = (d, []) := rfl

theorem decRun_cons (r : Bool) (d : Dec) (b : Byte) (bs : List Byte) :
    decRun r d (b :: bs) =
      ((decRun r (decStepWith r b d).1 bs).1,
        (decStepWith r b d).2.toList ++ (decRun r (decStepWith r b d).1 bs).2) := rfl

/-- A run over a concatenation is the two runs, one after the other (R133). -/
theorem decRun_append (r : Bool) (d : Dec) (bs cs : List Byte) :
    decRun r d (bs ++ cs) =
      ((decRun r (decRun r d bs).1 cs).1, (decRun r d bs).2 ++ (decRun r (decRun r d bs).1 cs).2) := by
  induction bs generalizing d with
  | nil => simp
  | cons b bs ih => simp [decRun_cons, ih]

/-- A run one byte longer. -/
theorem decRun_snoc (r : Bool) (d : Dec) (bs : List Byte) (b : Byte) :
    decRun r d (bs ++ [b]) =
      ((decStepWith r b (decRun r d bs).1).1, (decRun r d bs).2 ++ (decStepWith r b (decRun r d bs).1).2.toList) := by
  simp [decRun_append, decRun_cons]

/-! ### `DEC_STEP` on the whole state -/

@[simp] theorem decStep_dec (cfg : Config.Parameters) (b : Byte) (s : State) :
    (decStep cfg b s).dec = (decStepWith cfg.resyncRetest b s.dec).1 := by simp [decStep]
@[simp] theorem decStep_enc (cfg : Config.Parameters) (b : Byte) (s : State) : (decStep cfg b s).enc = s.enc := by simp [decStep]
@[simp] theorem decStep_rx (cfg : Config.Parameters) (b : Byte) (s : State) : (decStep cfg b s).rx = s.rx ++ [b] := by simp [decStep]
@[simp] theorem decStep_tx (cfg : Config.Parameters) (b : Byte) (s : State) : (decStep cfg b s).tx = s.tx := by simp [decStep]
@[simp] theorem decStep_txStart (cfg : Config.Parameters) (b : Byte) (s : State) : (decStep cfg b s).txStart = s.txStart := by
  simp [decStep]
@[simp] theorem decStep_samples (cfg : Config.Parameters) (b : Byte) (s : State) : (decStep cfg b s).samples = s.samples := by simp [decStep]
@[simp] theorem decStep_offers (cfg : Config.Parameters) (b : Byte) (s : State) : (decStep cfg b s).offers = s.offers := by simp [decStep]
@[simp] theorem decStep_draws (cfg : Config.Parameters) (b : Byte) (s : State) : (decStep cfg b s).draws = s.draws := by simp [decStep]
@[simp] theorem decStep_frames (cfg : Config.Parameters) (b : Byte) (s : State) :
    (decStep cfg b s).frames = s.frames ++ (decStepWith cfg.resyncRetest b s.dec).2.toList := by simp [decStep]
@[simp] theorem decStep_frameValid (cfg : Config.Parameters) (b : Byte) (s : State) :
    (decStep cfg b s).frameValid = (decStepWith cfg.resyncRetest b s.dec).2.isSome := by simp [decStep]

@[simp] theorem decFeed_dec (cfg : Config.Parameters) (bs : List Byte) (s : State) :
    (decFeed cfg bs s).dec = (decRun cfg.resyncRetest s.dec bs).1 := by
  induction bs generalizing s with
  | nil => rfl
  | cons b bs ih => simp [decFeed, ih, decRun_cons]
@[simp] theorem decFeed_enc (cfg : Config.Parameters) (bs : List Byte) (s : State) : (decFeed cfg bs s).enc = s.enc := by
  induction bs generalizing s with
  | nil => rfl
  | cons b bs ih => simp [decFeed, ih]
@[simp] theorem decFeed_rx (cfg : Config.Parameters) (bs : List Byte) (s : State) : (decFeed cfg bs s).rx = s.rx ++ bs := by
  induction bs generalizing s with
  | nil => simp [decFeed]
  | cons b bs ih => simp [decFeed, ih]
@[simp] theorem decFeed_tx (cfg : Config.Parameters) (bs : List Byte) (s : State) : (decFeed cfg bs s).tx = s.tx := by
  induction bs generalizing s with
  | nil => rfl
  | cons b bs ih => simp [decFeed, ih]
@[simp] theorem decFeed_txStart (cfg : Config.Parameters) (bs : List Byte) (s : State) :
    (decFeed cfg bs s).txStart = s.txStart := by
  induction bs generalizing s with
  | nil => rfl
  | cons b bs ih => simp [decFeed, ih]
@[simp] theorem decFeed_offers (cfg : Config.Parameters) (bs : List Byte) (s : State) :
    (decFeed cfg bs s).offers = s.offers := by
  induction bs generalizing s with
  | nil => rfl
  | cons b bs ih => simp [decFeed, ih]
@[simp] theorem decFeed_samples (cfg : Config.Parameters) (bs : List Byte) (s : State) :
    (decFeed cfg bs s).samples = s.samples := by
  induction bs generalizing s with
  | nil => rfl
  | cons b bs ih => simp [decFeed, ih]
@[simp] theorem decFeed_frames (cfg : Config.Parameters) (bs : List Byte) (s : State) :
    (decFeed cfg bs s).frames = s.frames ++ (decRun cfg.resyncRetest s.dec bs).2 := by
  induction bs generalizing s with
  | nil => simp [decFeed]
  | cons b bs ih => simp [decFeed, ih, decRun_cons]

/-! ### The invariant of one step -/

theorem decReset_inv : Dec.reset.Inv :=
  ⟨fun _ => by decide, fun h => by simp [Dec.reset] at h, fun h => by simp [Dec.reset] at h,
    fun h => by simp [Dec.reset] at h, rfl⟩

/-- `DEC_STEP` keeps the invariant of `DEC`, in both variants. -/
theorem decStepWith_inv (r : Bool) (b : Byte) {d : Dec} (h : d.Inv) : (decStepWith r b d).1.Inv := by
  cases hp : d.phase with
  | sync =>
    rw [decStepWith_sync r b hp]
    have hk := h.syncing hp
    unfold decSync
    split
    · split
      · exact ⟨fun h' => by simp at h', fun _ => rfl, fun h' => by simp at h', fun h' => by simp at h', h.canonical⟩
      · next h3 =>
        refine ⟨fun _ => ?_, fun h' => absurd hp h', fun h' => by simp [hp] at h', fun h' => by simp [hp] at h', h.canonical⟩
        have : d.syncIndex.toNat ≠ 3 := fun e => h3 (BitVec.eq_of_toNat_eq (by simpa using e))
        simp only [BitVec.toNat_add]; simp; omega
    · refine ⟨fun _ => ?_, fun h' => absurd hp h', fun h' => by simp [hp] at h', fun h' => by simp [hp] at h', h.canonical⟩
      simp only [resyncIndex]; split <;> decide
  | readCommand =>
    rw [decStepWith_readCommand r b hp]
    exact ⟨fun h' => by simp at h', fun _ => h.matched (by simp [hp]), fun h' => by simp at h', fun h' => by simp at h',
      h.canonical⟩
  | readLength =>
    rw [decStepWith_readLength r b hp]
    unfold decReadLength
    split
    · exact ⟨fun _ => by simp, fun h' => by simp at h', fun h' => by simp at h', fun h' => by simp at h', h.canonical⟩
    · next hb =>
      refine ⟨fun h' => by simp at h', fun _ => h.matched (by simp [hp]), fun _ => ?_, fun _ j hj => by simp at hj,
        h.canonical⟩
      have : b.toNat ≠ 0 := fun e => hb (BitVec.eq_of_toNat_eq (by simpa using e))
      simp; omega
  | readPayload =>
    rw [decStepWith_readPayload r b hp]
    have hf := h.filling hp
    have hl := d.pendingLength.isLt
    unfold decReadPayload
    dsimp only
    split
    · exact ⟨fun _ => by simp, fun h' => by simp at h', fun h' => by simp at h', fun h' => by simp at h',
        writeCell_wf _ _ _ h.canonical⟩
    · next hn =>
      have hc : (d.filledCount + 1).toNat = d.filledCount.toNat + 1 := by
        simp only [BitVec.toNat_add]; simp; omega
      refine ⟨fun h' => by simp [hp] at h', fun _ => h.matched (by simp [hp]), fun _ => ?_, fun _ j hj => ?_,
        writeCell_wf _ _ _ h.canonical⟩
      · simp only [hc]; omega
      · simp only [hc] at hj
        by_cases e : j = d.filledCount.toNat
        · subst e; simp [readCell_writeCell_self d.rxbuf b (i := d.filledCount.toNat) (by omega)]
        · exact readCell_writeCell_isSome _ _ _ _ (h.present hp j (by omega))

/-- `DEC_RUN` keeps the invariant of `DEC`. -/
theorem decRun_inv (r : Bool) (bs : List Byte) {d : Dec} (h : d.Inv) : (decRun r d bs).1.Inv := by
  induction bs generalizing d with
  | nil => exact h
  | cons b bs ih => exact ih (decStepWith_inv r b h)

end Sys2Proof.Machine
end

