-- ==== Sys2Proof/Laws/Encoder.lean ====
section
/-! SUPPORT. One lemma per operation of `ENC`: what it answers, and everything it can do. -/

namespace Sys2Proof.Machine

/-! ### `ENCODE` -/

theorem encodeRequest_ok {c : Byte} {p : List Byte} (h : p.length ≤ 255) : encodeRequest c p = .ok (frameBytes c p) := by
  simp [encodeRequest, Config.maxLen, h]

theorem encodeRequest_error {c : Byte} {p : List Byte} (h : 255 < p.length) :
    encodeRequest c p = .error .invalidArgument := by
  simp [encodeRequest, Config.maxLen, Nat.not_le.mpr h]

/-! ### Loading a payload -/

@[simp] theorem encLoad_phase (vs : List Byte) (i : Nat) (e : Enc) : (encLoad i vs e).phase = e.phase := by
  induction vs generalizing i e with
  | nil => rfl
  | cons v vs ih => simp [encLoad, ih]

/-- A load leaves the cells below its first index and beyond its last alone. -/
theorem readCell_encLoad_other (vs : List Byte) (i j : Nat) (e : Enc) (h : j < i ∨ i + vs.length ≤ j) :
    readCell (encLoad i vs e).txbuf j = readCell e.txbuf j := by
  induction vs generalizing i e with
  | nil => rfl
  | cons v vs ih =>
    simp only [List.length_cons] at h
    rw [encLoad, ih (i + 1) _ (by omega), encStore_txbuf, readCell_writeCell_other _ _ (by omega)]

/-- A load that fits the buffer puts its bytes in order. -/
theorem readCell_encLoad (vs : List Byte) (i j : Nat) (e : Enc) (h : i + vs.length ≤ 255) (hj : j < vs.length) :
    readCell (encLoad i vs e).txbuf (i + j) = vs[j]? := by
  induction vs generalizing i j e with
  | nil => simp at hj
  | cons v vs ih =>
    simp only [List.length_cons] at h hj
    cases j with
    | zero =>
      rw [encLoad, readCell_encLoad_other _ _ _ _ (by omega), encStore_txbuf]
      simpa using readCell_writeCell_self e.txbuf v (i := i) (by omega)
    | succ j =>
      have := ih (i + 1) j (encStore i v e) (by omega) (by omega)
      rw [encLoad, show i + (j + 1) = i + 1 + j by omega, this]
      simp

/-! ### `SEND` -/

theorem send_oversized {c : Byte} {p : List Byte} (s : State) (h : 255 < p.length) :
    send c p s = .next (refuse .invalidArgument s) := by
  simp [send, encodeRequest_error h]

theorem send_busy {c : Byte} {p : List Byte} {s : State} (h : p.length ≤ 255) (hb : s.enc.phase ≠ .idle) :
    send c p s = .next (notEnabled s) := by
  simp [send, encodeRequest_ok h, hb]

theorem send_idle {c : Byte} {p : List Byte} {s : State} (h : p.length ≤ 255) (hi : s.enc.phase = .idle) :
    send c p s =
      .next (reply .performed { s with enc := encLatch c (BitVec.ofNat 8 p.length) (encLoad 0 p s.enc) }) := by
  simp [send, encodeRequest_ok h, hi]

/-- Everything `SEND` can do. -/
theorem send_cases (c : Byte) (p : List Byte) (s : State) :
    (∃ a, a ≠ .performed ∧ send c p s = .next (reply a s)) ∨
    (s.enc.phase = .idle ∧ p.length ≤ 255 ∧ send c p s =
      .next (reply .performed { s with enc := encLatch c (BitVec.ofNat 8 p.length) (encLoad 0 p s.enc) })) := by
  by_cases h : p.length ≤ 255
  · by_cases hi : s.enc.phase = .idle
    · exact .inr ⟨hi, h, send_idle h hi⟩
    · exact .inl ⟨.notEnabled, by simp, send_busy h hi⟩
  · exact .inl ⟨.refused .invalidArgument, by simp, send_oversized s (by omega)⟩

/-- Every meaning is the `SEND` of its instruction's frame. -/
theorem exec_eq_send (i : Instr) (s : State) : exec i s = send i.command i.payload s := by
  cases i <;> rfl

/-! ### The ports -/

/-- Everything `TXBUF_WRITE` can do. -/
theorem txbufWrite_cases (i v : Byte) (s : State) :
    (∃ a, txbufWrite i v s = reply a s) ∨
    (s.enc.phase = .idle ∧ txbufWrite i v s = reply .performed { s with enc := encStore i.toNat v s.enc }) := by
  unfold txbufWrite
  split
  · exact .inl ⟨_, rfl⟩
  · split
    · exact .inl ⟨_, rfl⟩
    · exact .inr ⟨by simp_all, rfl⟩

/-- Everything `ENC_START` can do. -/
theorem encStart_cases (c n : Byte) (s : State) :
    (∃ a, encStart c n s = reply a s) ∨
    (s.enc.phase = .idle ∧ encStart c n s = reply .performed { s with enc := encLatch c n s.enc }) := by
  unfold encStart
  split
  · exact .inl ⟨_, rfl⟩
  · exact .inr ⟨by simp_all, rfl⟩

/-- Everything `ENC_EMIT` can do when it answers a next state. -/
theorem encEmit_next {s t : State} (h : encEmit s = .next t) :
    (s.enc.phase = .idle ∧ t = notEnabled s) ∨
    (s.enc.phase ≠ .idle ∧ ∃ b, encOffer s.enc = some b ∧
      t = reply .performed (outByte b { s with enc := encAdvance s.enc })) := by
  unfold encEmit at h
  split at h
  · next hi => exact .inl ⟨hi, by simpa using h.symm⟩
  · next hi =>
    split at h
    · next b hb => exact .inr ⟨hi, b, hb, by simpa using h.symm⟩
    · split at h <;> cases h

/-- `ENC_EMIT` with a byte on offer. -/
theorem encEmit_of_offer {s : State} {b : Byte} (hb : encOffer s.enc = some b) :
    encEmit s = .next (reply .performed (outByte b { s with enc := encAdvance s.enc })) := by
  have : s.enc.phase ≠ .idle := fun h => by simp [encOffer, h] at hb
  simp [encEmit, this, hb]

/-- `ENC_EMIT` never refuses an instruction. -/
theorem encEmit_not_refused (s : State) (r : Refusal) : encEmit s ≠ .refused r := by
  unfold encEmit
  split
  · simp
  · split
    · simp
    · split <;> simp

end Sys2Proof.Machine
end

