-- ==== Sys2Proof/Laws/Step.lean ====
section
/-! SUPPORT. What a step does: which offer it takes, and how a run of steps unfolds. -/

namespace Sys2Proof.Machine

/-- An offer that does not wait is taken first. -/
theorem takeOffer_cons {e : Enc} {o : Offer} (rest : List Offer) (h : offerWaits e o = false) :
    takeOffer e (o :: rest) = some (o, rest) := by simp [takeOffer, h]

/-- While `ENC` is idle no offer waits. -/
@[simp] theorem offerWaits_idle {e : Enc} (h : e.phase = .idle) (o : Offer) : offerWaits e o = false := by
  simp [offerWaits, h]

/-! These offers never wait. -/

@[simp] theorem offerWaits_txbufWrite (e : Enc) (i v : Byte) : offerWaits e (.txbufWrite i v) = false := by
  simp [offerWaits]
@[simp] theorem offerWaits_encEmit (e : Enc) : offerWaits e .encEmit = false := by simp [offerWaits]
@[simp] theorem offerWaits_decStep (e : Enc) (b : Byte) : offerWaits e (.decStep b) = false := by simp [offerWaits]
@[simp] theorem offerWaits_rxChunk (e : Enc) (bs : List Byte) : offerWaits e (.rxChunk bs) = false := by
  simp [offerWaits]
@[simp] theorem offerWaits_sinkRead (e : Enc) (a : Byte) : offerWaits e (.sinkRead a) = false := by simp [offerWaits]
@[simp] theorem offerWaits_rst (e : Enc) : offerWaits e .rst = false := by simp [offerWaits]
@[simp] theorem offerWaits_edge (e : Enc) (p : EdgeIn) : offerWaits e (.edge p) = false := by simp [offerWaits]
@[simp] theorem offerWaits_environmentFailure (e : Enc) (k : ErrorKind) :
    offerWaits e (.environmentFailure k) = false := by simp [offerWaits]

/-- Offers that all wait stay in their places before the one that is taken. -/
theorem takeOffer_append {e : Enc} {ws : List Offer} {o : Offer} (rest : List Offer) (hw : ∀ w ∈ ws, offerWaits e w = true)
    (ho : offerWaits e o = false) : takeOffer e (ws ++ o :: rest) = some (o, ws ++ rest) := by
  induction ws with
  | nil => exact takeOffer_cons rest ho
  | cons w ws ih =>
    rw [List.cons_append, takeOffer, if_pos (hw w (by simp)), ih fun w h => hw w (by simp [h])]
    rfl

/-- The host's step is that of the default build. -/
theorem step_eq (s : State) : step s = stepWith Config.standard s := rfl
/-- The host's machine is the default build. -/
theorem core_eq : Sys2Proof.core = machineWith Config.standard := rfl

/-- A step performs an offer at the head that does not wait. -/
theorem step_head (cfg : Config.Parameters) {s : State} {o : Offer} {rest : List Offer} (ho : s.offers = o :: rest)
    (hw : offerWaits s.enc o = false) : stepWith cfg s = runOffer cfg o (beginStep rest s) := by
  simp [stepWith, ho, takeOffer_cons rest hw]

/-- What a step is: the offer taken, or holding still. -/
theorem step_cases (cfg : Config.Parameters) (s : State) :
    (∃ o rest, takeOffer s.enc s.offers = some (o, rest) ∧ stepWith cfg s = runOffer cfg o (beginStep rest s)) ∨
    (takeOffer s.enc s.offers = none ∧ stepWith cfg s = .next (beginStep s.offers s)) := by
  unfold stepWith
  split
  · next o rest h => exact .inl ⟨o, rest, h, rfl⟩
  · next h => exact .inr ⟨h, rfl⟩

theorem run_zero (cfg : Config.Parameters) (s : State) : (machineWith cfg).run 0 s = .next s := rfl

theorem run_succ_of_next (cfg : Config.Parameters) {s t : State} (k : Nat) (h : stepWith cfg s = .next t) :
    (machineWith cfg).run (k + 1) s = (machineWith cfg).run k t := by
  simp only [Host.Core.run]
  rw [show (machineWith cfg).step s = .next t from h]

/-- A run of `j + k` steps is `j` steps and then `k`. -/
theorem run_add (cfg : Config.Parameters) {s t : State} (j k : Nat) (h : (machineWith cfg).run j s = .next t) :
    (machineWith cfg).run (j + k) s = (machineWith cfg).run k t := by
  induction j generalizing s with
  | zero => cases h; simp
  | succ j ih =>
    rw [show j + 1 + k = (j + k) + 1 by omega]
    simp only [Host.Core.run] at h ⊢
    split at h
    · exact ih h
    · cases h
    · cases h

end Sys2Proof.Machine
end

