-- ==== Sys2Proof/Laws/Offers.lean ====
section
/-! SUPPORT. Everything an offer can do to each block when it answers a next state: five moves of `ENC` with `TX`, two of `DEC`
with `RX` and the frames. Every statement about all steps is one case analysis over these. -/

namespace Sys2Proof.Machine

/-- Everything one operation at an edge can do to `ENC` and `TX`, `RESET` apart. -/
inductive EncMove (e : Enc) (tx : List Byte) : Enc → List Byte → Prop where
  | hold : EncMove e tx e tx
  | store (m : Memory) : e.phase = .idle → (e.txbuf.wf = true → m.wf = true) → EncMove e tx { e with txbuf := m } tx
  | start (c n : Byte) (m : Memory) : e.phase = .idle → (e.txbuf.wf = true → m.wf = true) →
      EncMove e tx { e with phase := .pre, count := 0, command := c, length := n, txbuf := m } tx
  | emit (b : Byte) : encOffer e = some b → EncMove e tx (encAdvance e) (tx ++ [b])

/-- What a move does to `TX`: nothing, or the byte on offer at its end. -/
theorem EncMove.tx_cases {e e' : Enc} {tx tx' : List Byte} (h : EncMove e tx e' tx') :
    tx' = tx ∨ ∃ b, encOffer e = some b ∧ tx' = tx ++ [b] := by
  cases h with
  | emit b hb => exact .inr ⟨b, hb, rfl⟩
  | _ => exact .inl rfl

@[simp] theorem onPort_none {α : Type} (f : α → State → State) (s : State) : onPort none f s = s := rfl
@[simp] theorem onPort_some {α : Type} (x : α) (f : α → State → State) (s : State) : onPort (some x) f s = f x s := rfl

/-- A load changes no register. -/
theorem encLoad_eq (vs : List Byte) (i : Nat) (e : Enc) : encLoad i vs e = { e with txbuf := (encLoad i vs e).txbuf } := by
  induction vs generalizing i e with
  | nil => rfl
  | cons v vs ih => rw [encLoad, ih]; rfl

theorem txbufWrite_move (i v : Byte) (s : State) : EncMove s.enc s.tx (txbufWrite i v s).enc (txbufWrite i v s).tx := by
  rcases txbufWrite_cases i v s with ⟨a, h⟩ | ⟨hi, h⟩ <;> rw [h]
  · exact .hold
  · exact .store _ hi (writeCell_wf _ _ _)

theorem send_move {c : Byte} {p : List Byte} {s t : State} (h : send c p s = .next t) :
    EncMove s.enc s.tx t.enc t.tx := by
  rcases send_cases c p s with ⟨a, -, h'⟩ | ⟨hi, -, h'⟩ <;> rw [h'] at h <;> cases h
  · exact .hold
  · rw [encLoad_eq]; exact .start _ _ _ hi (encLoad_wf _ _ _)

theorem encEmit_move {s t : State} (h : encEmit s = .next t) : EncMove s.enc s.tx t.enc t.tx := by
  rcases encEmit_next h with ⟨-, rfl⟩ | ⟨-, b, hb, rfl⟩
  · exact .hold
  · exact .emit b hb

/-- While busy, a write and a start at the ports leave the encoder alone. -/
theorem ports_busy {s : State} (hb : s.enc.phase ≠ .idle) (w r : Option (Byte × Byte)) :
    let s' := onPort r (fun r => encStart r.1 r.2) (onPort w (fun w => txbufWrite w.1 w.2) s)
    s'.enc = s.enc ∧ s'.tx = s.tx := by
  cases w <;> cases r <;> simp [onPort, txbufWrite, encStart, hb, notEnabled]

/-- A write and a start at the ports leave the rest of the state alone. -/
theorem ports_frame (s : State) (w r : Option (Byte × Byte)) :
    let s' := onPort r (fun r => encStart r.1 r.2) (onPort w (fun w => txbufWrite w.1 w.2) s)
    s'.dec = s.dec ∧ s'.rx = s.rx ∧ s'.frames = s.frames ∧ s'.tx = s.tx ∧ s'.frameValid = s.frameValid ∧
      s'.samples = s.samples ∧ s'.txStart = s.txStart := by
  have hw : ∀ s : State, let s' := onPort w (fun w => txbufWrite w.1 w.2) s
      s'.dec = s.dec ∧ s'.rx = s.rx ∧ s'.frames = s.frames ∧ s'.tx = s.tx ∧ s'.frameValid = s.frameValid ∧
      s'.samples = s.samples ∧ s'.txStart = s.txStart := by
    intro s
    cases w with
    | none => simp [onPort]
    | some w => rcases txbufWrite_cases w.1 w.2 s with ⟨a, h⟩ | ⟨-, h⟩ <;> simp [onPort, h]
  cases r with
  | none => simpa [onPort] using hw s
  | some r =>
    dsimp only [onPort_some]
    rcases encStart_cases r.1 r.2 (onPort w (fun w => txbufWrite w.1 w.2) s) with ⟨a, h⟩ | ⟨-, h⟩ <;> rw [h] <;>
      exact hw s

/-- What a write and a start at the ports do to `ENC` in `IDLE`. -/
theorem ports_idle {s : State} (hi : s.enc.phase = .idle) (w r : Option (Byte × Byte)) :
    let s' := onPort r (fun r => encStart r.1 r.2) (onPort w (fun w => txbufWrite w.1 w.2) s)
    EncMove s.enc s.tx s'.enc s'.tx := by
  have hw : ∃ m : Memory, (s.enc.txbuf.wf = true → m.wf = true) ∧
      (onPort w (fun w => txbufWrite w.1 w.2) s).enc = { s.enc with txbuf := m } ∧
      (onPort w (fun w => txbufWrite w.1 w.2) s).tx = s.tx := by
    cases w with
    | none => exact ⟨s.enc.txbuf, id, rfl, rfl⟩
    | some w =>
      rcases txbufWrite_cases w.1 w.2 s with ⟨a, h⟩ | ⟨-, h⟩
      · exact ⟨s.enc.txbuf, id, by simp [onPort, h], by simp [onPort, h]⟩
      · exact ⟨_, writeCell_wf _ w.1.toNat w.2, by simp [onPort, h, encStore], by simp [onPort, h]⟩
  obtain ⟨m, hm, he, ht⟩ := hw
  cases r with
  | none => simp only [onPort] at he ht ⊢; rw [he, ht]; exact .store m hi hm
  | some r =>
    simp only [onPort] at he ht ⊢
    rcases encStart_cases r.1 r.2 _ with ⟨a, h⟩ | ⟨-, h⟩ <;> rw [h]
    · simp only [reply_enc, reply_tx, he, ht]; exact .store m hi hm
    · simp only [reply_enc, reply_tx, he, ht]; exact .start _ _ m hi hm

/-- What an edge without `rst` does to `ENC`. -/
theorem encEdge_move {p : EdgeIn} {s t : State} (h : encEdge p s = .next t) : EncMove s.enc s.tx t.enc t.tx := by
  unfold encEdge at h
  dsimp only at h
  split at h
  · next hc =>
    have hb := ports_busy hc.1 p.txbufWrite p.request
    have := encEmit_move h
    rwa [hb.1, hb.2] at this
  · by_cases hi : s.enc.phase = .idle
    · cases h; exact ports_idle hi p.txbufWrite p.request
    · cases h
      have hb := ports_busy hi p.txbufWrite p.request
      rw [hb.1, hb.2]
      exact .hold

/-- What an edge without `rst` does to the rest: nothing but `DEC`'s part, which is taken before. -/
theorem encEdge_frame {p : EdgeIn} {s t : State} (h : encEdge p s = .next t) :
    t.dec = s.dec ∧ t.rx = s.rx ∧ t.frames = s.frames ∧ t.frameValid = s.frameValid ∧ t.samples = s.samples ∧
      t.txStart = s.txStart := by
  have hp := ports_frame s p.txbufWrite p.request
  unfold encEdge at h
  dsimp only at h
  split at h
  · rcases encEmit_next h with ⟨-, rfl⟩ | ⟨-, b, -, rfl⟩ <;>
      exact ⟨hp.1, hp.2.1, hp.2.2.1, hp.2.2.2.2⟩
  · cases h; exact ⟨hp.1, hp.2.1, hp.2.2.1, hp.2.2.2.2⟩

/-- The offer is a `RESET`. -/
def isReset : Offer → Bool
  | .rst => true
  | .edge p => p.rst
  | _ => false

/-- The sink's part of an edge. -/
theorem sink_frame (a : Option Byte) (s : State) :
    (onPort a sinkRead s).dec = s.dec ∧ (onPort a sinkRead s).enc = s.enc ∧ (onPort a sinkRead s).rx = s.rx ∧
      (onPort a sinkRead s).tx = s.tx ∧ (onPort a sinkRead s).frames = s.frames ∧
      (onPort a sinkRead s).txStart = s.txStart := by
  cases a <;> simp [onPort, sinkRead]

/-- The decoder's part of an edge. -/
theorem rx_part (cfg : Config.Parameters) (b : Option Byte) (s : State) :
    (onPort b (decStep cfg) s).enc = s.enc ∧ (onPort b (decStep cfg) s).tx = s.tx ∧
      (onPort b (decStep cfg) s).txStart = s.txStart ∧ ∃ bs : List Byte,
      (onPort b (decStep cfg) s).dec = (decRun cfg.resyncRetest s.dec bs).1 ∧ (onPort b (decStep cfg) s).rx = s.rx ++ bs ∧
      (onPort b (decStep cfg) s).frames = s.frames ++ (decRun cfg.resyncRetest s.dec bs).2 := by
  cases b with
  | none => exact ⟨rfl, rfl, rfl, [], by simp [onPort]⟩
  | some b => exact ⟨by simp [onPort], by simp [onPort], by simp [onPort], [b], by simp [onPort, decRun_cons]⟩

/-- The sink's part of an edge, as its samples. -/
theorem sink_takes (a : Option Byte) (s : State) : SinkTakes a s (onPort a sinkRead s) := by
  cases a with
  | none => rfl
  | some a => exact ⟨rxbufRdata s a, by simp [sinkRead], fun b hb => by simp [rxbufRdata, hb]⟩

/-- The sink's and the decoder's part of an edge, in a step. -/
theorem edge_takes (cfg : Config.Parameters) (rx raddr : Option Byte) (rest : List Offer) (s : State) :
    let s' := onPort rx (decStep cfg) (onPort raddr sinkRead (beginStep rest s))
    DecTakes cfg rx s s' ∧ SinkTakes raddr s s' ∧ s'.enc = s.enc ∧ s'.tx = s.tx := by
  have h := sink_takes raddr (beginStep rest s)
  obtain ⟨d1, d2, d3, d4, d5, d6⟩ := sink_frame raddr (beginStep rest s)
  have hf : (onPort raddr sinkRead (beginStep rest s)).frameValid = false := by cases raddr <;> simp [onPort, sinkRead]
  have hs : SinkTakes raddr s (onPort rx (decStep cfg) (onPort raddr sinkRead (beginStep rest s))) := by
    cases rx with
    | none => exact h
    | some b => cases raddr <;> rw [onPort_some] <;> simp only [SinkTakes, decStep_samples] <;> exact h
  obtain ⟨e1, e2, -⟩ := rx_part cfg rx (onPort raddr sinkRead (beginStep rest s))
  refine ⟨?_, hs, e1.trans d2, e2.trans d4⟩
  cases rx with
  | none => exact ⟨d1, d3, d5, hf⟩
  | some b => simp only [DecTakes, onPort_some, decStep_dec, decStep_rx, decStep_frames, decStep_frameValid, d1, d3, d5,
      beginStep_dec, beginStep_rx, beginStep_frames, and_self]

/-- What happens after `DEC`'s and the sink's part of an edge leaves that part as it is. -/
theorem takes_congr {cfg : Config.Parameters} {rx raddr : Option Byte} {s u t : State}
    (h : DecTakes cfg rx s u ∧ SinkTakes raddr s u) (h1 : t.dec = u.dec) (h2 : t.rx = u.rx) (h3 : t.frames = u.frames)
    (h4 : t.frameValid = u.frameValid) (h5 : t.samples = u.samples) : DecTakes cfg rx s t ∧ SinkTakes raddr s t := by
  unfold DecTakes SinkTakes at *
  rw [h1, h2, h3, h4, h5]
  exact h

/-- An offer that is not a `RESET`: `ENC` makes one move and `DEC` runs over the bytes it takes. -/
theorem runOffer_move {cfg : Config.Parameters} {o : Offer} {s t : State} (hr : isReset o = false) (h : runOffer cfg o s = .next t) :
    EncMove s.enc s.tx t.enc t.tx ∧ t.txStart = s.txStart ∧ ∃ bs : List Byte, t.dec = (decRun cfg.resyncRetest s.dec bs).1 ∧
      t.rx = s.rx ++ bs ∧ t.frames = s.frames ++ (decRun cfg.resyncRetest s.dec bs).2 := by
  have still : ∀ {u : State}, u.dec = s.dec → u.rx = s.rx → u.frames = s.frames → ∃ bs : List Byte,
      u.dec = (decRun cfg.resyncRetest s.dec bs).1 ∧ u.rx = s.rx ++ bs ∧
      u.frames = s.frames ++ (decRun cfg.resyncRetest s.dec bs).2 :=
    fun h1 h2 h3 => ⟨[], by simp [h1, h2, h3]⟩
  have sendCase : ∀ {c : Byte} {p : List Byte}, send c p s = .next t → EncMove s.enc s.tx t.enc t.tx ∧
      t.txStart = s.txStart ∧ ∃ bs : List Byte, t.dec = (decRun cfg.resyncRetest s.dec bs).1 ∧
      t.rx = s.rx ++ bs ∧ t.frames = s.frames ++ (decRun cfg.resyncRetest s.dec bs).2 := by
    intro c p h'
    refine ⟨send_move h', ?_⟩
    rcases send_cases c p s with ⟨a, -, h''⟩ | ⟨-, -, h''⟩ <;> rw [h''] at h' <;> cases h' <;>
      exact ⟨rfl, still rfl rfl rfl⟩
  cases o with
  | frame bytes =>
    simp only [runOffer, runFrame] at h
    split at h
    · rw [exec_eq_send] at h; exact sendCase h
    · cases h
  | send c p => exact sendCase h
  | call op =>
    simp only [runOffer, runCall] at h
    split at h
    · rw [exec_eq_send] at h; exact sendCase h
    · cases h; exact ⟨.hold, rfl, still rfl rfl rfl⟩
  | txbufWrite i v =>
    cases h
    refine ⟨txbufWrite_move i v s, ?_⟩
    rcases txbufWrite_cases i v s with ⟨a, h⟩ | ⟨-, h⟩ <;> rw [h] <;> exact ⟨rfl, still rfl rfl rfl⟩
  | encStart c n =>
    cases h
    rcases encStart_cases c n s with ⟨a, h⟩ | ⟨hi, h⟩ <;> rw [h] <;> refine ⟨?_, rfl, still rfl rfl rfl⟩
    · exact .hold
    · exact .start c n s.enc.txbuf hi id
  | encEmit =>
    refine ⟨encEmit_move h, ?_⟩
    rcases encEmit_next h with ⟨-, rfl⟩ | ⟨-, b, -, rfl⟩ <;> exact ⟨rfl, still rfl rfl rfl⟩
  | decStep b =>
    cases h
    exact ⟨by simp [EncMove.hold], by simp, [b], by simp [decRun_cons]⟩
  | rxChunk bs =>
    cases h
    exact ⟨by simp [EncMove.hold], by simp, bs, by simp⟩
  | sinkRead a => cases h; exact ⟨.hold, rfl, still rfl rfl rfl⟩
  | rst => simp [isReset] at hr
  | edge p =>
    simp only [isReset] at hr
    simp only [runOffer, clockEdge, hr, Bool.false_eq_true, if_false] at h
    obtain ⟨d1, d2, d3, d4, d5, d6⟩ := sink_frame p.rxbufRaddr s
    obtain ⟨e1, e2, e6, bs, e3, e4, e5⟩ := rx_part cfg p.rx (onPort p.rxbufRaddr sinkRead s)
    obtain ⟨f1, f2, f3, -, -, f4⟩ := encEdge_frame h
    have := encEdge_move h
    rw [e1, e2, d2, d4] at this
    exact ⟨this, by rw [f4, e6, d6], bs, by rw [f1, e3, d1], by rw [f2, e4, d3], by rw [f3, e5, d5, d1]⟩
  | environmentFailure k => cases h; exact ⟨.hold, rfl, still rfl rfl rfl⟩

/-- An offer that is a `RESET`. -/
theorem runOffer_reset {cfg : Config.Parameters} {o : Offer} {s t : State} (hr : isReset o = true) (h : runOffer cfg o s = .next t) :
    t.dec = Dec.reset ∧ t.enc = Enc.reset ∧ t.rx = [] ∧ t.tx = s.tx ∧ t.frames = s.frames ∧ t.frameValid = false ∧
      t.txStart = s.tx.length := by
  cases o with
  | rst => cases h; exact ⟨rfl, rfl, rfl, rfl, rfl, rfl, rfl⟩
  | edge p =>
    simp only [isReset] at hr
    simp only [runOffer, clockEdge, hr, if_true] at h
    cases h
    obtain ⟨d1, d2, d3, d4, d5, d6⟩ := sink_frame p.rxbufRaddr s
    simp [d4, d5]
  | _ => simp [isReset] at hr

/-- Whether the next step is a `RESET` is whether the offer it takes is one. -/
theorem takesReset_eq {s : State} {o : Offer} {rest : List Offer} (h : takeOffer s.enc s.offers = some (o, rest)) :
    s.takesReset = isReset o := by
  simp only [State.takesReset, h]
  cases o <;> rfl

/-! ### The invariant of one move -/

theorem encReset_inv : Enc.reset.Inv :=
  ⟨fun h => by simp [Enc.reset] at h, fun h => by simp [Enc.reset] at h, fun _ => rfl, rfl⟩

/-- Every move of `ENC` keeps its invariant. -/
theorem EncMove.inv {e e' : Enc} {tx tx' : List Byte} (h : EncMove e tx e' tx') (hi : e.Inv) : e'.Inv := by
  cases h with
  | hold => exact hi
  | store m hp hm =>
    exact ⟨fun h => absurd h (by simp [hp]), fun h => absurd h (by simp [hp]), fun _ => hi.elsewhere (.inl hp),
      hm hi.canonical⟩
  | start c n m hp hm =>
    exact ⟨fun _ => by simp, fun h => by simp at h, fun h => by simp at h, hm hi.canonical⟩
  | emit b hb =>
    have hwf : (encAdvance e).txbuf.wf = true := by simpa using hi.canonical
    cases hp : e.phase with
    | idle => simp [encOffer, hp] at hb
    | pre =>
      have h3 := hi.preamble hp
      by_cases hc : e.count = 3
      · have he : encAdvance e = { e with phase := .cmd, count := 0 } := by simp [encAdvance, hp, hc]
        rw [he] at hwf ⊢
        exact ⟨fun h => by simp at h, fun h => by simp at h, fun _ => rfl, hwf⟩
      · have he : encAdvance e = { e with count := e.count + 1 } := by simp only [encAdvance, hp, if_neg hc]
        have : e.count.toNat ≠ 3 := fun x => hc (BitVec.eq_of_toNat_eq (by simpa using x))
        rw [he] at hwf ⊢
        refine ⟨fun _ => ?_, fun h => by simp [hp] at h, fun h => by simp [hp] at h, hwf⟩
        simp only [BitVec.toNat_add]; simp; omega
    | cmd =>
      have he : encAdvance e = { e with phase := .len } := by simp [encAdvance, hp]
      rw [he] at hwf ⊢
      exact ⟨fun h => by simp at h, fun h => by simp at h, fun _ => hi.elsewhere (.inr (.inl hp)), hwf⟩
    | len =>
      have h0 := hi.elsewhere (.inr (.inr hp))
      by_cases hl : e.length = 0
      · have he : encAdvance e = { e with phase := .idle } := by simp [encAdvance, hp, hl]
        rw [he] at hwf ⊢
        exact ⟨fun h => by simp at h, fun h => by simp at h, fun _ => h0, hwf⟩
      · have he : encAdvance e = { e with phase := .pay } := by simp only [encAdvance, hp, if_neg hl]
        have : e.length.toNat ≠ 0 := fun x => hl (BitVec.eq_of_toNat_eq (by simpa using x))
        rw [he] at hwf ⊢
        exact ⟨fun h => by simp at h, fun _ => by simp [h0]; omega, fun h => by simp at h, hwf⟩
    | pay =>
      have hlt := hi.payload hp
      have hl := e.length.isLt
      by_cases hc : e.count.toNat + 1 = e.length.toNat
      · have he : encAdvance e = { e with phase := .idle, count := 0 } := by simp [encAdvance, hp, hc]
        rw [he] at hwf ⊢
        exact ⟨fun h => by simp at h, fun h => by simp at h, fun _ => rfl, hwf⟩
      · have he : encAdvance e = { e with count := e.count + 1 } := by simp [encAdvance, hp, hc]
        rw [he] at hwf ⊢
        refine ⟨fun h => by simp [hp] at h, fun _ => ?_, fun h => by simp [hp] at h, hwf⟩
        simp only [BitVec.toNat_add]; simp; omega

end Sys2Proof.Machine
end

