-- ==== Sys2Proof/Laws/Operands.lean ====
section
/-! SUPPORT. One lemma for each operand form of the Device Facade: what it accepts and the one frame it expands to. -/

namespace Sys2Proof.Machine

/-- `setTxPower`'s operand in range is the byte equal to the number. -/
theorem powerOperand_ok {level : Int} (h0 : 0 ≤ level) (h9 : level ≤ 9) :
    powerOperand level = .ok (BitVec.ofInt 8 level) := by
  have e : BitVec.ofInt 8 level = BitVec.ofNat 8 level.toNat := by
    apply BitVec.eq_of_toNat_eq; simp [BitVec.toNat_ofInt]; omega
  unfold powerOperand
  rw [if_pos ⟨h0, h9⟩, e]

theorem powerOperand_error {level : Int} (h : level < 0 ∨ 9 < level) : powerOperand level = .error .invalidArgument := by
  unfold powerOperand
  rw [if_neg]
  rintro ⟨h0, h9⟩
  have : level ≤ 9 := h9
  omega

theorem transmitOperand_ok {data : List Byte} (h1 : 1 ≤ data.length) (h2 : data.length ≤ 245) :
    transmitOperand (some data) = .ok data := by
  unfold transmitOperand
  exact if_pos ⟨h1, h2⟩

theorem transmitOperand_error {data : List Byte} (h : data.length = 0 ∨ 245 < data.length) :
    transmitOperand (some data) = .error .invalidArgument := by
  unfold transmitOperand
  refine if_neg ?_
  rintro ⟨h0, h9⟩
  have : data.length ≤ 245 := h9
  omega

/-- A call whose precondition holds is the `SEND` of the frame it expands to. -/
theorem runCall_ok {op : FacadeOp} {i : Instr} (h : expand op = .ok i) (s : State) :
    runCall op s = send i.command i.payload s := by
  simp only [runCall, h, exec_eq_send]

/-- A call whose precondition fails is refused, and nothing is sent. -/
theorem runCall_error {op : FacadeOp} {k : ErrorKind} (h : expand op = .error k) (s : State) :
    runCall op s = .next (refuse k s) := by
  simp only [runCall, h]

end Sys2Proof.Machine
end

