-- ==== Sys2Proof/Laws/PerInstr.lean ====
section
/-! SUPPORT. One family over the instructions as syntax: the size of an instruction's frame on the wire (R6, R86). -/

namespace Sys2Proof.Laws.WireSize

/-- A well-formed instruction's frame has its six header bytes and its payload: 6 to 261 bytes, and its last header byte is the
payload's size. -/
def Statement (i : Instr) : Prop :=
  i.WellFormed → (encode i).length = 6 + i.payload.length ∧ (encode i).length ≤ 261 ∧
    (encode i)[5]?.map BitVec.toNat = some i.payload.length

/-- The one reason for all of them: the payload is at most 255 bytes. -/
theorem of_wellFormed (i : Instr) : Statement i := by
  intro h
  have hp := h.payload_length
  have hn := toNat_ofNat_length hp
  refine ⟨by simp [encode], by simp [encode]; omega, ?_⟩
  rw [encode, frameBytes_eq]
  simpa using hn

theorem setFrequency (rx tx : Word32) : Statement (.setFrequency rx tx) := of_wellFormed _
theorem setMode (mode : Byte) : Statement (.setMode mode) := of_wellFormed _
theorem flushTxBuffer : Statement .flushTxBuffer := of_wellFormed _
theorem writeTxData (data : List Byte) : Statement (.writeTxData data) := of_wellFormed _
theorem watchdogRequest : Statement .watchdogRequest := of_wellFormed _
theorem getReceiveData : Statement .getReceiveData := of_wellFormed _
theorem greenLedControl (value : Byte) : Statement (.greenLedControl value) := of_wellFormed _
theorem setTxPower (level : Byte) : Statement (.setTxPower level) := of_wellFormed _
theorem debug (payload : List Byte) : Statement (.debug payload) := of_wellFormed _
theorem setSeed (payload : List Byte) : Statement (.setSeed payload) := of_wellFormed _
theorem getVersion : Statement .getVersion := of_wellFormed _
theorem setTxBuffer (payload : List Byte) : Statement (.setTxBuffer payload) := of_wellFormed _
theorem frameAny (command : Byte) (payload : List Byte) : Statement (.frameAny command payload) := of_wellFormed _

end Sys2Proof.Laws.WireSize
end

