-- ==== Sys2Proof/Tests/Slice0.lean ====
section
/-! SUPPORT. The model's own tests: which terms are instructions, words written out from the spec's encodings, single steps against
the spec's vectors (95_test_vectors.md), and for every statement with hypotheses a named witness that meets them. -/

namespace Sys2Proof.Tests

open Sys2Proof Sys2Proof.Machine

/-! ### Helpers -/

/-- The next state of an outcome, if it is one. -/
def after (o : Host.Outcome State Fault Refusal) : Option State :=
  match o with
  | .next s => some s
  | .fault _ => none
  | .refused _ => none

/-- `n` bytes. -/
def bytes (n : Nat) : List Byte := List.replicate n 0x5A

@[simp] theorem bytes_length (n : Nat) : (bytes n).length = n := List.length_replicate

/-- After reset, with these registers of `ENC`. -/
def encAt (ph : EncPhase) (k c n : Byte) (cells : List Host.Cell) : State :=
  { State.reset with enc := ⟨ph, k, c, n, ⟨cells⟩⟩ }

/-- After reset, with these registers of `DEC` and one byte offered to it. -/
def decAt (ph : DecPhase) (k : BitVec 3) (c n i : Byte) (cells : List Host.Cell) (b : Byte) : State :=
  { State.reset with dec := ⟨ph, k, c, n, i, ⟨cells⟩⟩, offers := [.decStep b] }

/-- After reset, with these offers. -/
def offered (os : List Offer) : State := { State.reset with offers := os }

/-- A buffer whose cells `0..n-1` are present. -/
def filled : Nat → Memory
  | 0 => Memory.absent
  | n + 1 => writeCell (filled n) n 0x5A

theorem filled_present (n j : Nat) (hn : n ≤ 255) (hj : j < n) : readCell (filled n) j = some 0x5A := by
  induction n with
  | zero => omega
  | succ n ih =>
    by_cases h : j = n
    · subst h; exact readCell_writeCell_self _ _ (by omega)
    · rw [filled, readCell_writeCell_other _ _ h]; exact ih (by omega) (by omega)

theorem filled_wf (n : Nat) : (filled n).wf = true := by
  induction n with
  | zero => rfl
  | succ n ih => exact writeCell_wf _ _ _ ih

/-! ### Which terms are instructions -/

theorem test_wellFormed_writeTxData : (Instr.writeTxData (bytes 256)).wellFormed = false := by simp [Instr.wellFormed, Config.maxLen]
theorem test_wellFormed_debug : (Instr.debug (bytes 256)).wellFormed = false := by simp [Instr.wellFormed, Config.maxLen]
theorem test_wellFormed_setSeed : (Instr.setSeed (bytes 256)).wellFormed = false := by simp [Instr.wellFormed, Config.maxLen]
theorem test_wellFormed_setTxBuffer : (Instr.setTxBuffer (bytes 256)).wellFormed = false := by simp [Instr.wellFormed, Config.maxLen]
theorem test_wellFormed_frameAny_size : (Instr.frameAny 0x71 (bytes 256)).wellFormed = false := by simp [Instr.wellFormed, Config.maxLen]
/-- Its header is command 2's own, so it is not the generic row's (R93). -/
theorem test_wellFormed_frameAny_row : (Instr.frameAny 2 [0x01]).wellFormed = false := by decide
theorem test_wellFormed_largest : (Instr.writeTxData (bytes 255)).wellFormed = true := by simp [Instr.wellFormed, Config.maxLen]
/-- Command 2 with a length its row does not have is a generic frame (R89, V38b). -/
theorem test_wellFormed_nonconforming : (Instr.frameAny 2 []).wellFormed = true := by decide
/-- `length_range` 1..245 and level 0..9 are the payload column's, which the blocks do not check (R89). -/
theorem test_conforming :
    (Instr.writeTxData []).conforming = false ∧ (Instr.writeTxData (bytes 245)).conforming = true ∧
    (Instr.writeTxData (bytes 246)).conforming = false ∧ (Instr.setTxPower 9).conforming = true ∧
    (Instr.setTxPower 10).conforming = false ∧ (Instr.frameAny 0x71 []).conforming = false := by
  simp [Instr.conforming, Config.transmitMax, Config.powerMax]

/-! ### Decoding: words from the spec's encodings (V39 to V51) -/

theorem test_decode_setFrequency :
    decode [0x71, 0xFE, 0x39, 0x1D, 0x01, 0x08, 0x40, 0x0E, 0xCF, 0x19, 0x78, 0x56, 0x34, 0x12] =
      .ok (.setFrequency 433000000 0x12345678) := by rfl
theorem test_decode_setMode : decode [0x71, 0xFE, 0x39, 0x1D, 0x02, 0x01, 0x01] = .ok (.setMode 1) := by rfl
theorem test_decode_flushTxBuffer : decode [0x71, 0xFE, 0x39, 0x1D, 0x03, 0x00] = .ok .flushTxBuffer := by rfl
theorem test_decode_writeTxData :
    decode [0x71, 0xFE, 0x39, 0x1D, 0x04, 0x02, 0xDE, 0xAD] = .ok (.writeTxData [0xDE, 0xAD]) := by rfl
theorem test_decode_watchdogRequest : decode [0x71, 0xFE, 0x39, 0x1D, 0x05, 0x00] = .ok .watchdogRequest := by rfl
theorem test_decode_getReceiveData : decode [0x71, 0xFE, 0x39, 0x1D, 0x07, 0x00] = .ok .getReceiveData := by rfl
theorem test_decode_greenLedControl :
    decode [0x71, 0xFE, 0x39, 0x1D, 0x08, 0x01, 0x01] = .ok (.greenLedControl 1) := by rfl
theorem test_decode_setTxPower : decode [0x71, 0xFE, 0x39, 0x1D, 0x09, 0x01, 0x09] = .ok (.setTxPower 9) := by rfl
theorem test_decode_debug : decode [0x71, 0xFE, 0x39, 0x1D, 0x0A, 0x00] = .ok (.debug []) := by rfl
theorem test_decode_setSeed : decode [0x71, 0xFE, 0x39, 0x1D, 0x11, 0x00] = .ok (.setSeed []) := by rfl
theorem test_decode_getVersion : decode [0x71, 0xFE, 0x39, 0x1D, 0x12, 0x00] = .ok .getVersion := by rfl
theorem test_decode_setTxBuffer : decode [0x71, 0xFE, 0x39, 0x1D, 0x13, 0x00] = .ok (.setTxBuffer []) := by rfl
theorem test_decode_frameAny :
    decode [0x71, 0xFE, 0x39, 0x1D, 0x71, 0x01, 0x71] = .ok (.frameAny 0x71 [0x71]) := by rfl
/-- Command 6 is unassigned (R88); command 2 with length 0 is outside its row (R89, V38b). -/
theorem test_decode_unassigned :
    decode [0x71, 0xFE, 0x39, 0x1D, 0x06, 0x00] = .ok (.frameAny 6 []) ∧
    decode [0x71, 0xFE, 0x39, 0x1D, 0x02, 0x00] = .ok (.frameAny 2 []) := ⟨rfl, rfl⟩
theorem test_decode_rejected :
    decode [0x71, 0xFE, 0x39, 0x1D, 0x02] = .error .truncatedHeader ∧
    decode [0x71, 0xFE, 0x39, 0x1C, 0x02, 0x00] = .error .badPreamble ∧
    decode [0x71, 0xFE, 0x39, 0x1D, 0x02, 0x01] = .error .truncatedPayload ∧
    decode [0x71, 0xFE, 0x39, 0x1D, 0x03, 0x00, 0x00] = .error .trailingBytes := ⟨rfl, rfl, rfl, rfl⟩

/-- A row's `match` value, its payload bytes zero, is read as the row's instruction (R81, R93). -/
theorem test_tableWord_a :
    decodeTableWord 48 0x71FE391D0108 = some (.setFrequency 0 0) ∧
    decodeTableWord 48 0x71FE391D0201 = some (.setMode 0) ∧ decodeTableWord 48 0x71FE391D0300 = some .flushTxBuffer ∧
    decodeTableWord 48 0x71FE391D0400 = some (.writeTxData []) := by decide
theorem test_tableWord_b :
    decodeTableWord 48 0x71FE391D0500 = some .watchdogRequest ∧ decodeTableWord 48 0x71FE391D0700 = some .getReceiveData ∧
    decodeTableWord 48 0x71FE391D0801 = some (.greenLedControl 0) ∧
    decodeTableWord 48 0x71FE391D0901 = some (.setTxPower 0) ∧ decodeTableWord 48 0x71FE391D0A00 = some (.debug []) := by
  decide
theorem test_tableWord_c :
    decodeTableWord 48 0x71FE391D1100 = some (.setSeed []) ∧ decodeTableWord 48 0x71FE391D1200 = some .getVersion ∧
    decodeTableWord 48 0x71FE391D1300 = some (.setTxBuffer []) ∧
    decodeTableWord 48 0x71FE391D0000 = some (.frameAny 0 []) ∧ decodeTableWord 48 0x71FE391C0000 = none := by decide
/-- Each row's first row by the table is itself. -/
theorem test_rowOfHeader :
    opcodeTable.all (fun r => rowOfHeader r.bits == some r.mnemonic) = true := by decide

/-! ### Encoding (V1, V3, V16) -/

theorem test_encode_setMode : encode (.setMode 1) = [0x71, 0xFE, 0x39, 0x1D, 0x02, 0x01, 0x01] := by decide
theorem test_encode_setFrequency :
    encode (.setFrequency 145500000 145500000) =
      [0x71, 0xFE, 0x39, 0x1D, 0x01, 0x08, 0x60, 0x27, 0xAC, 0x08, 0x60, 0x27, 0xAC, 0x08] := by decide
theorem test_encode_no_escaping :
    frameBytes 0x71 [0x71, 0xFE, 0x39, 0x1D] = [0x71, 0xFE, 0x39, 0x1D, 0x71, 0x04, 0x71, 0xFE, 0x39, 0x1D] := by decide

/-! ### One step of each instruction: the first step after reset runs a table word -/

theorem test_step_setFrequency :
    (after (step (State.reset.withFetchWord 48 0x71FE391D0108))).map (fun t => (t.enc.phase, t.enc.command, t.enc.length)) =
      some (.pre, 1, 8) := by decide
theorem test_step_setMode :
    (after (step (offered [.frame [0x71, 0xFE, 0x39, 0x1D, 0x02, 0x01, 0x5A]]))).map
      (fun t => (t.enc.command, t.enc.length, readCell t.enc.txbuf 0)) = some (2, 1, some 0x5A) := by decide
theorem test_step_flushTxBuffer :
    (after (exec .flushTxBuffer (encAt .idle 0 0 0 [(0, 7)]))).map
      (fun t => (t.enc.command, t.enc.length, t.enc.txbuf.cells)) = some (3, 0, [(0, 7)]) := by decide
theorem test_step_writeTxData :
    (after (exec (.writeTxData [0xDE, 0xAD]) (encAt .idle 0 0 0 [(1, 7), (2, 8)]))).map
      (fun t => (t.enc.command, t.enc.length, t.enc.txbuf.cells)) =
      some (4, 2, [(0, 0xDE), (1, 0xAD), (2, 8)]) := by decide
theorem test_step_watchdogRequest :
    (after (exec .watchdogRequest State.reset)).map (fun t => (t.enc.command, t.enc.length)) = some (5, 0) := by decide
theorem test_step_getReceiveData :
    (after (exec .getReceiveData State.reset)).map (fun t => (t.enc.command, t.enc.length)) = some (7, 0) := by decide
theorem test_step_greenLedControl :
    (after (exec (.greenLedControl 1) State.reset)).map (fun t => (t.enc.command, t.enc.txbuf.cells)) =
      some (8, [(0, 1)]) := by decide
/-- The blocks do not check the level (R157). -/
theorem test_step_setTxPower :
    (after (exec (.setTxPower 200) State.reset)).map (fun t => (t.enc.command, t.enc.txbuf.cells)) =
      some (9, [(0, 200)]) := by decide
theorem test_step_debug :
    (after (exec (.debug [1, 2]) State.reset)).map (fun t => (t.enc.command, t.enc.txbuf.cells)) =
      some (10, [(0, 1), (1, 2)]) := by decide
theorem test_step_setSeed :
    (after (exec (.setSeed [3]) State.reset)).map (fun t => (t.enc.command, t.enc.length)) = some (17, 1) := by decide
theorem test_step_getVersion :
    (after (exec .getVersion State.reset)).map (fun t => (t.enc.command, t.enc.length)) = some (18, 0) := by decide
theorem test_step_setTxBuffer :
    (after (exec (.setTxBuffer [4]) State.reset)).map (fun t => (t.enc.command, t.enc.txbuf.cells)) =
      some (19, [(0, 4)]) := by decide
theorem test_step_frameAny :
    (after (exec (.frameAny 0xFF [5]) State.reset)).map (fun t => (t.enc.command, t.enc.txbuf.cells)) =
      some (0xFF, [(0, 5)]) := by decide

/-! ### The serializer and the ports (V19 to V21e) -/

theorem test_emit_fourth_preamble_byte :
    (after (encEmit (encAt .pre 3 2 1 [(0, 1)]))).map (fun t => (t.tx, t.enc.phase, t.enc.count)) =
      some ([0x1D], .cmd, 0) := by decide
theorem test_emit_last_payload_byte :
    (after (encEmit (encAt .pay 0 2 1 [(0, 9)]))).map (fun t => (t.tx, t.enc.phase, t.enc.count)) =
      some ([9], .idle, 0) := by decide
/-- V21: the seventh emit reads an absent cell. -/
theorem test_emit_absent_cell : encEmit (encAt .pay 0 4 1 []) = .fault .absentTxbufCell := by rfl
/-- V20. -/
theorem test_write_index_255 :
    (txbufWrite 255 0x55 State.reset).answers = [.refused .invalidArgument] ∧
    (txbufWrite 255 0x55 State.reset).enc = State.reset.enc := by decide
theorem test_write_while_busy :
    (txbufWrite 0 0x55 (encAt .pre 0 2 1 [(0, 1)])).enc.txbuf.cells = [(0, 1)] := by decide
/-- V21e. -/
theorem test_reset_midframe :
    (resetBlocks { encAt .pay 0 2 1 [(0, 1)] with tx := [0x71, 0xFE, 0x39, 0x1D, 0x02, 0x01] }).tx =
      [0x71, 0xFE, 0x39, 0x1D, 0x02, 0x01] ∧
    (resetBlocks { encAt .pay 0 2 1 [(0, 1)] with tx := [0x71, 0xFE, 0x39, 0x1D, 0x02, 0x01] }).txSinceReset = [] := by decide
theorem test_txLast :
    txLast (encAt .len 0 3 0 []) = true ∧ txLast (encAt .len 0 2 1 []) = false ∧
    txLast (encAt .pay 0 2 2 []) = false ∧ txLast (encAt .pay 1 2 2 []) = true := by decide

/-- R42, R105: a write and a start at one edge, with `tx_ready = 1`: both happen, and no byte is sent at that edge. -/
theorem test_edge_write_and_start :
    (after (clockEdge Config.standard ⟨false, some 0x71, some (0, 9), some (4, 1), true, none⟩ State.reset)).map
      (fun t => (t.enc, t.dec.syncIndex, t.tx)) = some (⟨.pre, 0, 4, 1, ⟨[(0, 9)]⟩⟩, 1, []) := by decide
/-- R42 (1), R200: at an edge with `rst = 1` the encoder sends no byte and the decoder delivers no frame. -/
theorem test_edge_reset :
    (after (clockEdge Config.standard ⟨true, some 0x00, none, none, true, none⟩
      { encAt .cmd 0 2 1 [] with dec := ⟨.readLength, 4, 9, 0, 0, ⟨[]⟩⟩ })).map (fun t => (t.tx, t.frames, t.enc, t.dec)) =
      some ([], [], Enc.reset, Dec.reset) := by decide
/-- R42 (2): at a busy edge the decoder takes its byte while the encoder emits. -/
theorem test_edge_busy :
    (after (clockEdge Config.standard ⟨false, some 0x00, none, some (4, 1), true, none⟩
      { encAt .cmd 0 2 1 [] with dec := ⟨.readLength, 4, 9, 0, 0, ⟨[]⟩⟩ })).map (fun t => (t.tx, t.frames, t.enc.phase)) =
      some ([2], [⟨9, []⟩], .len) := by decide
/-- R8, R124: the other build's step re-tests the byte. -/
theorem test_step_retest :
    (after (stepWith ⟨true⟩ (decAt .sync 2 0 0 0 [] 0x71))).map (fun t => t.dec.syncIndex) = some 1 ∧
    (after (step (decAt .sync 2 0 0 0 [] 0x71))).map (fun t => t.dec.syncIndex) = some 0 := by decide
/-- R37: the sink reads a present cell. -/
theorem test_sink_read :
    (sinkRead 2 (decAt .sync 0 4 3 3 [(0, 0xA0), (2, 0xA2)] 0)).samples = [0xA2] := by decide

/-! ### The decoder (V22 to V38b) -/

theorem test_decode_V23 :
    decodeStream false [0x71, 0x71, 0xFE, 0x39, 0x1D, 0x05, 0x00] = [] ∧
    decodeStream true [0x71, 0x71, 0xFE, 0x39, 0x1D, 0x05, 0x00] = [⟨5, []⟩] := by decide
theorem test_decode_V26a :
    decodeStream false [0x71, 0x71, 0x71, 0xFE, 0x39, 0x1D, 0x05, 0x00] = [⟨5, []⟩] := by decide
theorem test_decode_V28 :
    decodeStream false [0x71, 0xFE, 0x39, 0x1D, 0x09, 0x02, 0x71, 0xFE, 0x39, 0x1D, 0x03, 0x00] =
      [⟨9, [0x71, 0xFE]⟩] := by decide
theorem test_decode_V29 :
    (decRun false Dec.reset [0x71, 0xFE, 0x39, 0x1D, 0x02, 0x01, 0x01]).1 = ⟨.sync, 0, 2, 1, 1, ⟨[(0, 1)]⟩⟩ := by decide
theorem test_decode_V34 :
    (decRun false Dec.reset [0x71, 0xFE, 0x39, 0x1D, 0x04, 0x03, 0xAA]).1 =
      ⟨.readPayload, 4, 4, 3, 1, ⟨[(0, 0xAA)]⟩⟩ := by decide
theorem test_decode_V37 :
    (decStepWith false 0x71 ⟨.sync, 3, 0, 0, 0, ⟨[]⟩⟩).1.syncIndex = 0 ∧
    (decStepWith true 0x71 ⟨.sync, 3, 0, 0, 0, ⟨[]⟩⟩).1.syncIndex = 1 := by decide
theorem test_decode_P4 :
    (decRun false ⟨.sync, 0, 4, 3, 3, ⟨[(0, 0xA0), (1, 0xA1), (2, 0xA2)]⟩⟩
      [0x71, 0xFE, 0x39, 0x1D, 0x13, 0x02, 0xB0, 0xB1]) =
      (⟨.sync, 0, 0x13, 2, 2, ⟨[(0, 0xB0), (1, 0xB1), (2, 0xA2)]⟩⟩, [⟨0x13, [0xB0, 0xB1]⟩]) := by decide

/-! ### The facade (V4 to V9, V62) -/

theorem test_facade_refusals :
    expand (.setTxPower (-1)) = .error .invalidArgument ∧ expand (.setTxPower 10) = .error .invalidArgument ∧
    expand (.transmit (some [])) = .error .invalidArgument ∧ expand (.transmit none) = .error .invalidArgument :=
  ⟨rfl, rfl, rfl, rfl⟩
theorem test_facade_refused_leaves_idle :
    (after (step (offered [.call (.setTxPower 10), .call .flush]))).map (fun t => (t.enc, t.answers)) =
      some (Enc.reset, [.refused .invalidArgument]) := by decide

/-! ### Witnesses: the hypotheses of each statement are met -/

theorem witness_EncodedInstructionDecodesToItself :
    (Instr.setFrequency 0 0xFFFFFFFF).WellFormed ∧ (Instr.writeTxData (bytes 255)).WellFormed ∧
    (Instr.setTxBuffer []).WellFormed ∧ (Instr.frameAny 2 (bytes 255)).WellFormed := by
  simp [Instr.WellFormed, Instr.wellFormed, Config.maxLen, commandRowSelects, Config.idSetFrequency, Config.idSetMode,
    Config.idFlushTxBuffer, Config.idWriteTxData, Config.idWatchdogRequest, Config.idGetReceiveData, Config.idGreenLedControl,
    Config.idSetTxPower, Config.idDebug, Config.idSetSeed, Config.idGetVersion, Config.idSetTxBuffer]
theorem witness_DecodedBytesAreTheEncoding :
    decode [0x71, 0xFE, 0x39, 0x1D, 0x02, 0x01, 0x01] = .ok (.setMode 1) := rfl
theorem witness_DecoderFollowsTheOpcodeTable :
    (bytes 255).length = (0xFF : Byte).toNat ∧ (bytes 0).length = (0 : Byte).toNat := by simp
theorem witness_EncodeIsPreambleCommandLengthPayload : (bytes 255).length ≤ 255 ∧ 255 < (bytes 256).length := by
  simp
/-- The first two clauses, at both ends of the payload's size; and two equal concatenations for the second and the third. -/
theorem witness_EncodedFramesAreSelfDelimiting :
    encodeRequest 4 (bytes 255) = .ok (frameBytes 4 (bytes 255)) ∧ encodeRequest 3 [] = .ok (frameBytes 3 []) ∧
    frameBytes 3 [] ++ [0x71] = frameBytes 3 [] ++ [0x71] ∧
    (∀ f ∈ [(⟨3, []⟩ : Frame), ⟨4, bytes 255⟩], f.payload.length ≤ 255) := ⟨encodeRequest_ok (by simp), rfl, rfl, by simp⟩

theorem witness_SetFrequencyIsAccepted : State.reset.enc.phase = .idle := rfl
theorem witness_OneByteCommandsAreAccepted : State.reset.enc.phase = .idle := rfl
theorem witness_EmptyCommandsAreAccepted : State.reset.enc.phase = .idle := rfl
theorem witness_VariableCommandsAreAccepted : (bytes 255).length ≤ 255 ∧ State.reset.enc.phase = .idle :=
  ⟨by simp, rfl⟩
theorem witness_RequestWaitsWhileBusy :
    (Instr.setMode 1).WellFormed ∧ (encAt .pre 0 2 1 []).enc.phase ≠ .idle := by decide
theorem witness_OversizedPayloadIsRefused : 255 < (bytes 256).length := by simp

/-- At the smallest frame and at a payload byte, `k` at both ends and where `tx_last` is 1. -/
theorem witness_StartedFrameIsSentWhole :
    State.reset.enc.phase = .idle ∧ ([] : List Byte).length = (0 : Byte).toNat ∧ State.reset.enc.Holds [] ∧
    (encAt .idle 0 0 0 [(0, 9)]).enc.phase = .idle ∧ ([9] : List Byte).length = (1 : Byte).toNat ∧
    (encAt .idle 0 0 0 [(0, 9)]).enc.Holds [9] ∧ 0 ≤ 6 + 1 ∧ 5 + 1 ≤ 6 + 1 ∧ 6 + 1 ≤ 6 + 1 := by
  unfold Enc.Holds; decide
theorem witness_AcceptedInstructionIsSentWhole :
    (Instr.writeTxData (bytes 255)).WellFormed ∧ State.reset.enc.phase = .idle := ⟨test_wellFormed_largest, rfl⟩
theorem witness_TxbufWriteStoresOneCell :
    State.reset.enc.phase = .idle ∧ (0 : Byte).toNat ≤ 254 ∧ (254 : Byte).toNat ≤ 254 ∧
    (encAt .pay 0 2 1 []).enc.phase ≠ .idle := by decide
theorem witness_EncStartLatchesTheRequest :
    State.reset.enc.phase = .idle ∧ (encAt .len 0 2 1 []).enc.phase ≠ .idle := by decide
theorem witness_EmitInPhasePre :
    (encAt .pre 0 2 1 []).enc.phase = .pre ∧ (encAt .pre 0 2 1 []).enc.count.toNat = 0 ∧
    Config.preamble[0]? = some 0x71 ∧ (encAt .pre 3 2 1 []).enc.count.toNat = 3 ∧
    Config.preamble[3]? = some 0x1D := by decide
theorem witness_EmitInPhaseCmd : (encAt .cmd 0 2 1 []).enc.phase = .cmd := rfl
theorem witness_EmitInPhaseLen :
    (encAt .len 0 3 0 []).enc.phase = .len ∧ (encAt .len 0 3 0 []).enc.length = 0 ∧
    (encAt .len 0 3 255 []).enc.phase = .len ∧ (encAt .len 0 3 255 []).enc.length ≠ 0 := by decide
/-- The first byte of two, the 255th of 255, and an absent cell. -/
theorem witness_EmitInPhasePay :
    ((encAt .pay 0 2 2 [(0, 9)]).enc.count.toNat < (encAt .pay 0 2 2 [(0, 9)]).enc.length.toNat ∧
      readCell (encAt .pay 0 2 2 [(0, 9)]).enc.txbuf 0 = some 9) ∧
    ((encAt .pay 254 2 255 [(254, 9)]).enc.count.toNat < (encAt .pay 254 2 255 [(254, 9)]).enc.length.toNat ∧
      readCell (encAt .pay 254 2 255 [(254, 9)]).enc.txbuf 254 = some 9) ∧
    readCell (encAt .pay 0 2 1 []).enc.txbuf 0 = none := by decide
theorem witness_EmitInPhaseIdleIsNotEnabled : State.reset.enc.phase = .idle := rfl
theorem witness_EmitOutputsTheByteOnOffer :
    txValid (encAt .cmd 0 2 1 []) = true ∧ ∃ t, runOffer Config.standard .encEmit (encAt .cmd 0 2 1 []) = .next t := ⟨rfl, _, rfl⟩

theorem witness_SyncMatchAdvances :
    (decAt .sync 0 0 0 0 [] 0x71).offers = .decStep 0x71 :: [] ∧ (decAt .sync 0 0 0 0 [] 0x71).dec.phase = .sync ∧
    Config.preamble[(decAt .sync 0 0 0 0 [] 0x71).dec.syncIndex.toNat]? = some 0x71 ∧
    Config.preamble[(decAt .sync 3 0 0 0 [] 0x1D).dec.syncIndex.toNat]? = some 0x1D := by decide
theorem witness_SyncMismatchDiscards :
    Config.standard.resyncRetest = false ∧ (decAt .sync 3 0 0 0 [] 0x71).offers = .decStep 0x71 :: [] ∧
    (decAt .sync 3 0 0 0 [] 0x71).dec.phase = .sync ∧
    Config.preamble[(decAt .sync 3 0 0 0 [] 0x71).dec.syncIndex.toNat]? ≠ some 0x71 := by decide
/-- The preamble's first byte, and another. -/
theorem witness_SyncMismatchRetestsTheByte :
    (⟨true⟩ : Config.Parameters).resyncRetest = true ∧ (decAt .sync 3 0 0 0 [] 0x71).offers = .decStep 0x71 :: [] ∧
    (decAt .sync 3 0 0 0 [] 0x71).dec.phase = .sync ∧
    Config.preamble[(decAt .sync 3 0 0 0 [] 0x71).dec.syncIndex.toNat]? ≠ some 0x71 ∧
    Config.preamble[(decAt .sync 0 0 0 0 [] 0xFE).dec.syncIndex.toNat]? ≠ some 0xFE := by decide

/-- A decoder partly through a preamble. -/
theorem syncing_inv : (⟨.sync, 3, 0, 0, 0, Memory.absent⟩ : Dec).Inv :=
  ⟨fun _ => by decide, fun h => by simp at h, fun h => by simp at h, fun h => by simp at h, rfl⟩
theorem witness_RetestVariantDiffersOnlyAtPreambleStart :
    (⟨.sync, 3, 0, 0, 0, Memory.absent⟩ : Dec).Inv ∧ (3 : BitVec 3) ≠ 0 ∧ Dec.reset.Inv :=
  ⟨syncing_inv, by decide, decReset_inv⟩
theorem witness_ReadCommandStoresTheByte :
    (decAt .readCommand 4 0 0 0 [] 0xFF).offers = .decStep 0xFF :: [] ∧
    (decAt .readCommand 4 0 0 0 [] 0xFF).dec.phase = .readCommand := by decide
theorem witness_ReadLengthStoresTheByte :
    (decAt .readLength 4 9 0 0 [] 0).offers = .decStep 0 :: [] ∧ (decAt .readLength 4 9 0 0 [] 0).dec.phase = .readLength ∧
    (decAt .readLength 4 9 0 0 [] 0xFF).dec.phase = .readLength ∧ (0xFF : Byte) ≠ 0 := by decide

/-- A decoder that has `i` of `n` payload bytes. -/
def filling (i n : Byte) : State :=
  { State.reset with dec := ⟨.readPayload, 4, 9, n, i, filled i.toNat⟩, offers := [.decStep 0x42] }
theorem filling_inv (i n : Byte) (h : i.toNat < n.toNat) : (filling i n).dec.Inv := by
  refine ⟨fun h => by simp [filling] at h, fun _ => rfl, fun _ => h, fun _ j hj => ?_, filled_wf _⟩
  have hi := i.isLt
  simp only [filling] at hj ⊢
  rw [filled_present _ _ (by omega) hj]; rfl
/-- The first byte of two, and the 254th of 255. -/
theorem witness_ReadPayloadStoresTheByte :
    (filling 0 2).offers = .decStep 0x42 :: [] ∧ (filling 0 2).dec.phase = .readPayload ∧ (filling 0 2).dec.Inv ∧
    (filling 0 2).dec.filledCount.toNat ≠ (filling 0 2).dec.pendingLength.toNat - 1 ∧ (filling 253 255).dec.Inv ∧
    (filling 253 255).dec.filledCount.toNat ≠ (filling 253 255).dec.pendingLength.toNat - 1 :=
  ⟨rfl, rfl, filling_inv _ _ (by decide), by decide, filling_inv _ _ (by decide), by decide⟩
/-- The only byte of one, and the 255th of 255. -/
theorem witness_LastPayloadByteEmitsTheFrame :
    (filling 0 1).offers = .decStep 0x42 :: [] ∧ (filling 0 1).dec.phase = .readPayload ∧ (filling 0 1).dec.Inv ∧
    (filling 0 1).dec.filledCount.toNat = (filling 0 1).dec.pendingLength.toNat - 1 ∧ (filling 254 255).dec.Inv ∧
    (filling 254 255).dec.filledCount.toNat = (filling 254 255).dec.pendingLength.toNat - 1 :=
  ⟨rfl, rfl, filling_inv _ _ (by decide), by decide, filling_inv _ _ (by decide), by decide⟩
theorem witness_DecoderTakesEveryByte : (decAt .sync 0 0 0 0 [] 0x00).offers = .decStep 0x00 :: [] := rfl

theorem witness_EncodedFramesRoundTrip :
    Dec.reset.phase = .sync ∧ Dec.reset.syncIndex = 0 ∧
    encodeRequest 4 (bytes 255) = .ok (frameBytes 4 (bytes 255)) ∧
    (∀ f ∈ [(⟨3, []⟩ : Frame), ⟨4, bytes 255⟩], f.payload.length ≤ 255) := ⟨rfl, rfl, encodeRequest_ok (by simp), by simp⟩
/-- Noise that leaves `SYNC(3)`, noise that leaves `SYNC(0)` with a last byte outside the preamble, and none at all. -/
theorem witness_FrameAfterNoise :
    ¬ Config.preamble <:+: [0x71, 0xFE, 0x39] ∧ ¬ Config.preamble <:+: [0x71, 0x00] ∧
    ¬ Config.preamble <:+: ([] : List Byte) ∧ (bytes 255).length ≤ 255 ∧
    (∀ b, ([0x71, 0x00] : List Byte).getLast? = some b → b ≠ 0x71 ∧ b ≠ 0xFE ∧ b ≠ 0x39) ∧
    (decRun false Dec.reset [0x71, 0x00]).1.syncIndex = 0 ∧ (decRun false Dec.reset [0x71, 0xFE, 0x39]).1.syncIndex ≠ 0 := by
  refine ⟨by decide, by decide, by decide, by simp, ?_, by decide, by decide⟩
  intro b h
  cases h
  decide
theorem witness_DeliveredFrameStaysReadable :
    Dec.reset.phase = .sync ∧ Dec.reset.syncIndex = 0 ∧ (bytes 4).length ≤ 4 ∧ (bytes 5).length ≤ 5 ∧
    (bytes 6).length ≤ 6 + 0 ∧ (bytes 260).length ≤ 6 + 254 :=
  ⟨rfl, rfl, by simp, by simp, by simp, by simp⟩
theorem witness_EmittedPayloadFitsTheInput :
    (⟨3, []⟩ : Frame) ∈ (decRun false Dec.reset [0x71, 0xFE, 0x39, 0x1D, 0x03, 0x00]).2 := by decide

theorem witness_ResetGivesTheResetValues :
    (offered [.rst]).offers = .rst :: [] ∧ ∃ p : EdgeIn, (offered [.edge p]).offers = .edge p :: [] ∧ p.rst = true ∧
      p.request = some (4, 1) := ⟨rfl, ⟨true, some 0x71, some (0, 1), some (4, 1), true, none⟩, rfl, rfl, rfl⟩
theorem witness_StepRunsTheDecodedInstruction :
    (offered [.frame [0x71, 0xFE, 0x39, 0x1D, 0x03, 0x00]]).offers = .frame [0x71, 0xFE, 0x39, 0x1D, 0x03, 0x00] :: [] ∧
    decode [0x71, 0xFE, 0x39, 0x1D, 0x03, 0x00] = .ok .flushTxBuffer ∧
    (offered [.frame [0x71, 0xFE, 0x39, 0x1D, 0x03, 0x00]]).enc.phase = .idle := ⟨rfl, rfl, rfl⟩
theorem witness_WaitingRequestLetsOthersProceed :
    { encAt .pre 0 2 1 [] with offers := [.encStart 3 0, .call .flush, .encEmit] }.offers =
      [.encStart 3 0, .call .flush] ++ .encEmit :: [] ∧
    decode [0x71, 0xFE, 0x39, 0x1D, 0x03, 0x00] = .ok .flushTxBuffer ∧ (bytes 255).length ≤ 255 ∧
    expand .flush = .ok .flushTxBuffer ∧ (encAt .pre 0 2 1 []).enc.phase ≠ .idle ∧
    offerWaits (encAt .pre 0 2 1 []).enc .encEmit = false ∧ offerWaits (encAt .pre 0 2 1 []).enc (.decStep 0) = false :=
  ⟨rfl, rfl, by simp, rfl, by decide, by decide, by decide⟩
/-- V20: an `ENC_START` offered while a frame is in progress stays pending, and the frame goes on. -/
theorem test_start_stays_pending :
    (after (step { encAt .pre 0 2 1 [] with offers := [.encStart 3 0, .encEmit] })).map
      (fun t => (t.enc.command, t.tx, t.offers)) = some (2, [0x71], [.encStart 3 0]) := by decide
theorem witness_NothingOfferedHoldsTheBlocks : State.reset.offers = [] := rfl

theorem offered_inv (os : List Offer) : (offered os).Inv := ⟨decReset_inv, encReset_inv, Nat.le_refl _⟩
theorem witness_StepKeepsTheInvariant :
    (offered [.send 4 [1]]).Inv ∧
      ∃ t, (machineWith Config.standard).step (offered [.send 4 [1]]) = .next t := ⟨offered_inv _, _, rfl⟩
theorem witness_DecoderStateIsAFunctionOfItsInput :
    (offered [.decStep 0x71]).DecodesItsInput Config.standard ∧
      ∃ t, (machineWith Config.standard).step (offered [.decStep 0x71]) = .next t :=
  ⟨⟨rfl, List.nil_suffix⟩, _, rfl⟩
/-- A step that is no `RESET` and one that is. -/
theorem witness_FramesNeverInterleaveOnTx :
    (offered [.send 4 [1]]).Inv ∧ (offered [.send 4 [1]]).FramedFrom [] ∧ (offered [.send 4 [1]]).takesReset = false ∧
    (offered [.rst]).Inv ∧ (offered [.rst]).FramedFrom [] ∧ (offered [.rst]).takesReset = true ∧
    (∃ t, (machineWith Config.standard).step (offered [.send 4 [1]]) = .next t) ∧
      ∃ t, (machineWith Config.standard).step (offered [.rst]) = .next t :=
  ⟨offered_inv _, ⟨[], [], by simp, rfl, rfl⟩, rfl, offered_inv _, ⟨[], [], by simp, rfl, rfl⟩, rfl, ⟨_, rfl⟩, _, rfl⟩
theorem witness_NoFaultOverPresentPayload : (offered [.encEmit]).Inv ∧ (offered [.encEmit]).enc.PayloadPresent :=
  ⟨offered_inv _, fun h => absurd rfl h⟩
/-- A step that is no `RESET` and one that is. -/
theorem witness_TxPositionsCountFromReset :
    (offered [.encEmit]).Inv ∧ (∃ t, stepWith Config.standard (offered [.encEmit]) = .next t) ∧
    (offered [.encEmit]).takesReset = false ∧ (offered [.rst]).Inv ∧
    (∃ t, stepWith Config.standard (offered [.rst]) = .next t) ∧ (offered [.rst]).takesReset = true :=
  ⟨offered_inv _, ⟨_, rfl⟩, rfl, offered_inv _, ⟨_, rfl⟩, rfl⟩

/-- The states of a run in which a frame of length 0, two bytes before its end, goes out and nothing more is requested. -/
def endingFrame : Nat → State
  | 0 => encAt .cmd 0 3 0 []
  | 1 => { encAt .len 0 3 0 [] with tx := [3], answers := [.performed], draws := 1 }
  | 2 => { encAt .idle 0 3 0 [] with tx := [3, 0], answers := [.performed], draws := 2 }
  | n + 3 => { encAt .idle 0 3 0 [] with tx := [3, 0], answers := [.notEnabled], draws := n + 3 }
/-- The transport is ready at every step of that run. -/
theorem witness_FairTransportLetsEveryFrameEnd :
    EndlessRun Config.standard (fun _ => [.encEmit]) endingFrame ∧ FairTransport (fun _ => [.encEmit]) endingFrame ∧
    (endingFrame 0).Inv ∧ (endingFrame 0).enc.phase ≠ .idle := by
  refine ⟨fun n => ?_, fun n _ => ⟨n, Nat.le_refl n, ?_⟩, ?_, by decide⟩
  · rcases n with _ | _ | _ | n <;> rfl
  · rcases n with _ | _ | _ | n <;> rfl
  · exact ⟨decReset_inv, ⟨fun h => absurd h (by decide), fun h => absurd h (by decide), fun _ => rfl, rfl⟩, Nat.le_refl _⟩
theorem witness_InstructionsKeepThePayloadPresent :
    State.reset.enc.PayloadPresent ∧ ∃ t, exec (.writeTxData (bytes 3)) State.reset = .next t :=
  ⟨fun h => absurd rfl h, _, rfl⟩
theorem witness_DecoderAndEncoderStepsCommute :
    (∃ t, runOffer Config.standard .encEmit (encAt .cmd 0 2 1 []) = .next t) ∧
    (∃ t, runOffer Config.standard (.txbufWrite 254 1) State.reset = .next t) ∧
    (∃ t, runOffer Config.standard (.encStart 4 255) State.reset = .next t) ∧ ∃ t, runOffer Config.standard (.send 4 [1]) State.reset = .next t :=
  ⟨⟨_, rfl⟩, ⟨_, rfl⟩, ⟨_, rfl⟩, _, rfl⟩
theorem witness_OutsideFailuresLeaveTheBlocksAlone :
    (offered [.environmentFailure .transportSendFailure]).offers = .environmentFailure .transportSendFailure :: [] := rfl

/-- A write at either end of the buffer and one beyond it, with a start, an inbound byte and a read of the sink. -/
theorem witness_WriteAndStartAtOneEdge :
    (offered [.edge ⟨false, some 0x71, some (254, 1), some (4, 255), true, some 0⟩]).offers =
      .edge ⟨false, some 0x71, some (254, 1), some (4, 255), true, some 0⟩ :: [] ∧
    State.reset.enc.phase = .idle ∧ (0 : Byte).toNat ≤ 254 ∧ (254 : Byte).toNat ≤ 254 ∧
    (some (255, 1) : Option (Byte × Byte)) = some (255, 1) := by decide
/-- A byte on offer, and a payload byte whose cell is absent. -/
theorem witness_BusyEdgeOnlyEmits :
    { encAt .cmd 0 2 1 [] with offers := [.edge ⟨false, some 0x71, none, some (4, 1), true, some 0⟩] }.offers =
      .edge ⟨false, some 0x71, none, some (4, 1), true, some 0⟩ :: [] ∧
    (encAt .cmd 0 2 1 []).enc.phase ≠ .idle ∧ encOffer (encAt .cmd 0 2 1 []).enc = some 2 ∧
    (encAt .pay 0 2 1 []).enc.phase = .pay ∧ readCell (encAt .pay 0 2 1 []).enc.txbuf 0 = none := by decide
/-- A present cell and index 255. -/
theorem witness_SinkSamplesTheBuffer :
    (offered [.sinkRead 254]).offers = .sinkRead 254 :: [] ∧
    readCell (⟨[(254, 7)]⟩ : Memory) (254 : Byte).toNat = some 7 ∧ readCell (⟨[(254, 7)]⟩ : Memory) (255 : Byte).toNat = none :=
  ⟨rfl, by decide, by decide⟩

theorem witness_FacadeOperationsSendTheirFrame : State.reset.enc.phase = .idle := rfl
theorem witness_SetTxPowerChecksItsRange :
    State.reset.enc.phase = .idle ∧ (0 : Int) ≤ 0 ∧ (9 : Int) ≤ 9 ∧ (-1 : Int) < 0 ∧ (9 : Int) < 10 :=
  ⟨rfl, by decide, by decide, by decide, by decide⟩
theorem witness_TransmitChecksItsBuffer :
    State.reset.enc.phase = .idle ∧ 1 ≤ (bytes 1).length ∧ (bytes 245).length ≤ 245 ∧ (bytes 0).length = 0 ∧
    245 < (bytes 246).length := ⟨rfl, by simp, by simp, by simp, by simp⟩

end Sys2Proof.Tests
end

section
/-! SUPPORT. How many bytes of the frame in progress the decoder has taken (R22, R25), and from it the bound on the payload of an
emitted frame (R6, R86, R141). -/

namespace Sys2Proof.Machine

/-- The bytes of the frame in progress that `DEC` has taken: those matched in `SYNC` (R22), then the preamble, the command byte, the
length byte and the `dec.filled_count` payload bytes (R25, R80). -/
def Dec.bytesHeld (d : Dec) : Nat :=
  match d.phase with
  | .sync => d.syncIndex.toNat
  | .readCommand => 4
  | .readLength => 5
  | .readPayload => 6 + d.filledCount.toNat

theorem bytesHeld_sync {d : Dec} (h : d.phase = .sync) : d.bytesHeld = d.syncIndex.toNat := by simp [Dec.bytesHeld, h]

theorem bytesHeld_readCommand {d : Dec} (h : d.phase = .readCommand) : d.bytesHeld = 4 := by simp [Dec.bytesHeld, h]

theorem bytesHeld_readLength {d : Dec} (h : d.phase = .readLength) : d.bytesHeld = 5 := by simp [Dec.bytesHeld, h]

theorem bytesHeld_readPayload {d : Dec} (h : d.phase = .readPayload) : d.bytesHeld = 6 + d.filledCount.toNat := by
  simp [Dec.bytesHeld, h]

/-- A counter that wraps never counts up by more than one. -/
theorem toNat_add_one_le {w : Nat} (x : BitVec w) : (x + 1).toNat ≤ x.toNat + 1 :=
  calc (x + 1).toNat
    _ ≤ x.toNat + (1 : BitVec w).toNat := by rw [BitVec.toNat_add]; exact Nat.mod_le _ _
    _ ≤ x.toNat + 1 := by simpa using Nat.mod_le 1 (2 ^ w)

theorem resyncIndex_toNat_le (r : Bool) (b : Byte) : (resyncIndex r b).toNat ≤ 1 := by
  unfold resyncIndex
  split <;> decide

/-- A byte in `SYNC` matches one more byte at most, whether it is expected or not (R121, R122, R124). -/
theorem bytesHeld_decSync_le (r : Bool) (b : Byte) {d : Dec} (h : d.phase = .sync) :
    (decSync r b d).bytesHeld ≤ d.bytesHeld + 1 := by
  rw [bytesHeld_sync h]
  unfold decSync
  split
  · split
    · next h3 => simp [bytesHeld_readCommand, h3]
    · simpa [bytesHeld_sync, h] using toNat_add_one_le d.syncIndex
  · simpa [bytesHeld_sync, h] using (resyncIndex_toNat_le r b).trans (Nat.le_add_left _ _)

/-- `DEC_STEP` takes one byte, so at most one more is held after it; in every state, reachable or not. -/
theorem bytesHeld_decStepWith_le (r : Bool) (b : Byte) (d : Dec) :
    (decStepWith r b d).1.bytesHeld ≤ d.bytesHeld + 1 := by
  cases hp : d.phase with
  | sync =>
    rw [decStepWith_sync r b hp]
    exact bytesHeld_decSync_le r b hp
  | readCommand =>
    rw [decStepWith_readCommand r b hp, bytesHeld_readCommand hp, bytesHeld_readLength rfl]
  | readLength =>
    rw [decStepWith_readLength r b hp, bytesHeld_readLength hp]
    unfold decReadLength
    split
    · simp [bytesHeld_sync]
    · simp [bytesHeld_readPayload]
  | readPayload =>
    rw [decStepWith_readPayload r b hp, bytesHeld_readPayload hp]
    have hc := toNat_add_one_le d.filledCount
    unfold decReadPayload
    dsimp only
    split
    · simp [bytesHeld_sync]
    · simp only [bytesHeld_readPayload, hp]
      omega

/-- The frame a step emits has its 6 header bytes and its payload among the bytes held and the byte taken, and its payload has the
size that one length byte gives (R128, R130, R141). -/
theorem decStepWith_emits_payload_le {r : Bool} {b : Byte} {d : Dec} {f : Frame} (h : (decStepWith r b d).2 = some f) :
    f.payload.length + 6 ≤ d.bytesHeld + 1 ∧ f.payload.length ≤ 255 := by
  cases hp : d.phase with
  | sync => simp [decStepWith_sync r b hp] at h
  | readCommand => simp [decStepWith_readCommand r b hp] at h
  | readLength =>
    rw [decStepWith_readLength r b hp] at h
    unfold decReadLength at h
    split at h
    · obtain rfl := Option.some.inj h
      simp [bytesHeld_readLength hp]
    · simp at h
  | readPayload =>
    rw [decStepWith_readPayload r b hp] at h
    have hl := d.pendingLength.isLt
    unfold decReadPayload at h
    dsimp only at h
    split at h
    · obtain rfl := Option.some.inj h
      rw [readCells_length, bytesHeld_readPayload hp]
      omega
    · simp at h

/-- Every frame of a run has its bytes among those held at the start and those of the input. -/
theorem decRun_payload_le {r : Bool} {d : Dec} {bs : List Byte} {f : Frame} (h : f ∈ (decRun r d bs).2) :
    f.payload.length + 6 ≤ d.bytesHeld + bs.length ∧ f.payload.length ≤ 255 := by
  induction bs generalizing d with
  | nil => simp at h
  | cons b bs ih =>
    simp only [decRun_cons, List.mem_append, Option.mem_toList] at h
    rw [List.length_cons]
    obtain hnow | hlater := h
    · obtain ⟨hheld, hbyte⟩ := decStepWith_emits_payload_le hnow
      exact ⟨by omega, hbyte⟩
    · obtain ⟨hheld, hbyte⟩ := ih hlater
      have hstep := bytesHeld_decStepWith_le r b d
      exact ⟨by omega, hbyte⟩

/-- Settles O37: in `SYNC(0)` no byte is held, so a frame's bytes are all among the input's. -/
theorem emittedPayloadFitsTheInput : Obligations.EmittedPayloadFitsTheInput := by
  intro r d bs f hphase hindex hf
  have hheld : d.bytesHeld = 0 := by simp [bytesHeld_sync hphase, hindex]
  simpa [hheld] using decRun_payload_le hf

end Sys2Proof.Machine
end

section
/-! SUPPORT. What every step keeps (R22, R25, R26, R28, R34, R131): the invariant of the reachable states holds after `RESET` and
after every step from a state that has it. -/

namespace Sys2Proof.Machine

/-- A move of `ENC` takes nothing off `TX` (R203). -/
theorem EncMove.tx_length_le {e e' : Enc} {tx tx' : List Byte} (h : EncMove e tx e' tx') : tx.length ≤ tx'.length := by
  obtain rfl | ⟨b, -, rfl⟩ := h.tx_cases
  · exact Nat.le_refl _
  · simp

theorem reset_inv : State.reset.Inv := ⟨decReset_inv, encReset_inv, Nat.le_refl _⟩

/-- What a step does before its operation touches nothing the invariant speaks of. -/
theorem beginStep_inv (rest : List Offer) {s : State} (h : s.Inv) : (beginStep rest s).Inv := ⟨h.dec, h.enc, h.start⟩

/-- Every offer that answers a next state keeps the invariant: a `RESET` sets it up anew, and any other is a move of `ENC` and a run
of `DEC`. -/
theorem runOffer_inv {cfg : Config.Parameters} {o : Offer} {s t : State} (hs : s.Inv) (h : runOffer cfg o s = .next t) :
    t.Inv := by
  cases hr : isReset o with
  | true =>
    obtain ⟨hdec, henc, -, htx, -, -, hstart⟩ := runOffer_reset hr h
    exact ⟨hdec ▸ decReset_inv, henc ▸ encReset_inv, by rw [hstart, htx]⟩
  | false =>
    obtain ⟨hmove, hstart, bs, hdec, -, -⟩ := runOffer_move hr h
    exact ⟨hdec ▸ decRun_inv _ bs hs.dec, hmove.inv hs.enc, hstart ▸ hs.start.trans hmove.tx_length_le⟩

/-- Settles O42: a step performs one offer or holds the blocks, and either keeps the invariant. -/
theorem stepKeepsTheInvariant : Obligations.StepKeepsTheInvariant := by
  intro cfg s t hs h
  change stepWith cfg s = .next t at h
  obtain ⟨o, rest, -, hstep⟩ | ⟨-, hstep⟩ := step_cases cfg s <;> rw [hstep] at h
  · exact runOffer_inv (beginStep_inv rest hs) h
  · cases h
    exact beginStep_inv s.offers hs

/-- Settles O43: the reset state has each invariant, over no input and no output. -/
theorem resetMeetsTheInvariants : Obligations.ResetMeetsTheInvariants :=
  ⟨reset_inv, fun hbusy => absurd rfl hbusy, fun _ => ⟨rfl, List.nil_suffix⟩, ⟨[], [], by simp, rfl, rfl⟩, rfl⟩

end Sys2Proof.Machine
end

section
/-! SUPPORT. Where a step can fault (R142, R180, R217): at an `ENC_EMIT` alone, and there only where the byte to output has no value. -/

namespace Sys2Proof.Machine

/-- While a frame over present cells is in progress, a byte is on offer (R106 to R109). -/
theorem encOffer_isSome {e : Enc} (hinv : e.Inv) (hpresent : e.PayloadPresent) (hbusy : e.phase ≠ .idle) :
    (encOffer e).isSome := by
  cases hp : e.phase with
  | idle => exact absurd hp hbusy
  | pre =>
    have hk := hinv.preamble hp
    simp [encOffer, hp, preambleByte, Config.preamble]
    omega
  | cmd => simp [encOffer, hp]
  | len => simp [encOffer, hp]
  | pay => simpa [encOffer, hp] using hpresent hbusy _ (hinv.payload hp)

theorem encEmit_ne_fault {s : State} (hinv : s.enc.Inv) (hpresent : s.enc.PayloadPresent) (f : Fault) :
    encEmit s ≠ .fault f := by
  by_cases hidle : s.enc.phase = .idle
  · simp [encEmit, hidle]
  · obtain ⟨b, hb⟩ := Option.isSome_iff_exists.mp (encOffer_isSome hinv hpresent hidle)
    simp [encEmit_of_offer hb]

/-- `SEND` emits no byte itself, so it cannot fault. -/
theorem send_ne_fault (c : Byte) (p : List Byte) (s : State) (f : Fault) : send c p s ≠ .fault f := by
  obtain ⟨a, -, h⟩ | ⟨-, -, h⟩ := send_cases c p s <;> simp [h]

/-- An edge without `rst` that faults does so at its emit, which meets the registers from before the edge. -/
theorem encEdge_fault {p : EdgeIn} {s : State} {f : Fault} (h : encEdge p s = .fault f) :
    ∃ u : State, u.enc = s.enc ∧ encEmit u = .fault f := by
  unfold encEdge at h
  dsimp only at h
  split at h
  · next hc => exact ⟨_, (ports_busy hc.1 p.txbufWrite p.request).1, h⟩
  · cases h

/-- Whatever offer faults, an `ENC_EMIT` on the registers it met does. -/
theorem runOffer_fault {cfg : Config.Parameters} {o : Offer} {s : State} {f : Fault} (h : runOffer cfg o s = .fault f) :
    ∃ u : State, u.enc = s.enc ∧ encEmit u = .fault f := by
  cases o with
  | frame bytes =>
    simp only [runOffer, runFrame] at h
    split at h
    · rw [exec_eq_send] at h
      exact absurd h (send_ne_fault _ _ _ _)
    · cases h
  | send c p => exact absurd h (send_ne_fault _ _ _ _)
  | call op =>
    simp only [runOffer, runCall] at h
    split at h
    · rw [exec_eq_send] at h
      exact absurd h (send_ne_fault _ _ _ _)
    · cases h
  | encEmit => exact ⟨s, rfl, h⟩
  | edge p =>
    simp only [runOffer, clockEdge] at h
    split at h
    · cases h
    · obtain ⟨-, hsink, -⟩ := sink_frame p.rxbufRaddr s
      obtain ⟨hrx, -⟩ := rx_part cfg p.rx (onPort p.rxbufRaddr sinkRead s)
      obtain ⟨u, hu, hf⟩ := encEdge_fault h
      exact ⟨u, hu.trans (hrx.trans hsink), hf⟩
  | txbufWrite i v => cases h
  | encStart c n => cases h
  | decStep b => cases h
  | rxChunk bs => cases h
  | sinkRead a => cases h
  | rst => cases h
  | environmentFailure k => cases h

/-- Settles O46: a step that faults would be an emit without a byte on offer. -/
theorem noFaultOverPresentPayload : Obligations.NoFaultOverPresentPayload := by
  intro cfg s f hs hpresent h
  change stepWith cfg s = .fault f at h
  obtain ⟨o, rest, -, hstep⟩ | ⟨-, hstep⟩ := step_cases cfg s <;> rw [hstep] at h
  · obtain ⟨u, hu, hf⟩ := runOffer_fault h
    rw [beginStep_enc] at hu
    exact encEmit_ne_fault (hu ▸ hs.enc) (hu ▸ hpresent) f hf
  · cases h

end Sys2Proof.Machine
end

section
/-! SUPPORT. The frame of an instruction and of an emit, and that `ENC` works from its own registers alone, so that its steps
commute with those of `DEC` (R20). -/

namespace Sys2Proof.Machine

/-- Settles O13: an instruction is a `SEND`, which answers the state as it was or loads its payload and starts. -/
theorem instructionsChangeOnlyTheEncoder : Obligations.InstructionsChangeOnlyTheEncoder := by
  intro i s
  rw [exec_eq_send]
  obtain ⟨a, -, h⟩ | ⟨-, -, h⟩ := send_cases i.command i.payload s
  · exact ⟨_, a, h, by simp⟩
  · refine ⟨_, .performed, h, rfl, rfl, rfl, rfl, rfl, rfl, rfl, rfl, rfl, rfl, by simp, fun j hj => ?_, fun _ => rfl⟩
    exact readCell_encLoad_other _ 0 j s.enc (by omega)

/-- Settles O23: `tx_data` is the byte on offer, and the emit sends that byte and moves the counters on. -/
theorem emitOutputsTheByteOnOffer : Obligations.EmitOutputsTheByteOnOffer := by
  intro cfg s t hvalid h
  obtain ⟨hidle, -⟩ | ⟨-, b, hb, rfl⟩ := encEmit_next h
  · simp [txValid, hidle] at hvalid
  · simp [txData, hb]

/-- What `op` answers on `s` it works out from the registers of `ENC` alone: in every state with the registers of `s` it leaves the
same registers, sends the same bytes and gives the same answer, and it leaves the rest of that state alone (R20). -/
def ActsOnEnc (op : State → Host.Outcome State Fault Refusal) (s : State) : Prop :=
  ∃ (e : Enc) (out : List Byte) (a : Answer), ∀ s' : State, s'.enc = s.enc →
    op s' = .next (reply a { s' with enc := e, tx := s'.tx ++ out })

/-- An operation that only answers. -/
theorem actsOnEnc_of_reply {op : State → Host.Outcome State Fault Refusal} {s : State} (a : Answer)
    (h : ∀ s' : State, s'.enc = s.enc → op s' = .next (reply a s')) : ActsOnEnc op s :=
  ⟨s.enc, [], a, fun s' he => by rw [h s' he, ← he, List.append_nil]⟩

/-- An operation that writes registers and sends nothing. -/
theorem actsOnEnc_of_enc {op : State → Host.Outcome State Fault Refusal} {s : State} (e : Enc) (a : Answer)
    (h : ∀ s' : State, s'.enc = s.enc → op s' = .next (reply a { s' with enc := e })) : ActsOnEnc op s :=
  ⟨e, [], a, fun s' he => by rw [h s' he, List.append_nil]⟩

theorem txbufWrite_actsOnEnc (i v : Byte) (s : State) : ActsOnEnc (fun s => .next (txbufWrite i v s)) s := by
  by_cases hidle : s.enc.phase = .idle
  · by_cases hi : Config.bufCap ≤ i.toNat
    · exact actsOnEnc_of_reply (.refused .invalidArgument) fun s' he => by simp [txbufWrite, he, hidle, hi, refuse]
    · exact actsOnEnc_of_enc (encStore i.toNat v s.enc) .performed fun s' he => by simp [txbufWrite, he, hidle, hi]
  · exact actsOnEnc_of_reply .notEnabled fun s' he => by simp [txbufWrite, he, hidle, notEnabled]

theorem encStart_actsOnEnc (c n : Byte) (s : State) : ActsOnEnc (fun s => .next (encStart c n s)) s := by
  by_cases hidle : s.enc.phase = .idle
  · exact actsOnEnc_of_enc (encLatch c n s.enc) .performed fun s' he => by simp [encStart, he, hidle]
  · exact actsOnEnc_of_reply .notEnabled fun s' he => by simp [encStart, he, hidle, notEnabled]

theorem send_actsOnEnc (c : Byte) (p : List Byte) (s : State) : ActsOnEnc (send c p) s := by
  by_cases hp : p.length ≤ 255
  · by_cases hidle : s.enc.phase = .idle
    · refine actsOnEnc_of_enc (encLatch c (BitVec.ofNat 8 p.length) (encLoad 0 p s.enc)) .performed fun s' he => ?_
      rw [send_idle hp (he ▸ hidle), he]
    · exact actsOnEnc_of_reply .notEnabled fun s' he => send_busy hp (he ▸ hidle)
  · exact actsOnEnc_of_reply (.refused .invalidArgument) fun s' _ => send_oversized s' (by omega)

/-- An emit acts on `ENC` unless it faults. -/
theorem encEmit_actsOnEnc {s t : State} (h : encEmit s = .next t) : ActsOnEnc encEmit s := by
  obtain ⟨hidle, -⟩ | ⟨-, b, hb, -⟩ := encEmit_next h
  · exact actsOnEnc_of_reply .notEnabled fun s' he => by simp [encEmit, he, hidle, notEnabled]
  · refine ⟨encAdvance s.enc, [b], .performed, fun s' he => ?_⟩
    rw [encEmit_of_offer (he ▸ hb), he]
    rfl

/-- What acts on `ENC` alone gives the same blocks, streams and frames before a byte for `DEC` as after it. -/
theorem ActsOnEnc.commutes_decStep {op : State → Host.Outcome State Fault Refusal} {s t : State} (hop : ActsOnEnc op s)
    (h : op s = .next t) (cfg : Config.Parameters) (b : Byte) :
    ∃ u : State, op (decStep cfg b s) = .next u ∧ u.dec = (decStep cfg b t).dec ∧ u.enc = (decStep cfg b t).enc ∧
      u.rx = (decStep cfg b t).rx ∧ u.tx = (decStep cfg b t).tx ∧ u.frames = (decStep cfg b t).frames := by
  obtain ⟨e, out, a, hact⟩ := hop
  rw [hact s rfl] at h
  cases h
  exact ⟨_, hact _ (decStep_enc cfg b s), by simp⟩

/-- Settles O50: each of the four operations acts on `ENC` alone. -/
theorem decoderAndEncoderStepsCommute : Obligations.DecoderAndEncoderStepsCommute := by
  intro cfg b o s t ho h
  obtain rfl | ⟨i, v, rfl⟩ | ⟨c, n, rfl⟩ | ⟨c, p, rfl⟩ := ho
  · exact (encEmit_actsOnEnc h).commutes_decStep h cfg b
  · exact (txbufWrite_actsOnEnc i v s).commutes_decStep h cfg b
  · exact (encStart_actsOnEnc c n s).commutes_decStep h cfg b
  · exact (send_actsOnEnc c p s).commutes_decStep h cfg b

end Sys2Proof.Machine
end

section
/-! SUPPORT. `RESET`, the sink's read port and one clock edge with all its ports (R26, R37, R42, R104, R105, R192, R200). -/

namespace Sys2Proof.Machine

/-! ### `RESET` and the sink -/

/-- A step on an offered `RESET` is `resetBlocks`, after what the sink samples where it is an edge (R42, R200). -/
theorem step_reset (cfg : Config.Parameters) {s : State} {o : Offer} {rest : List Offer} (ho : s.offers = o :: rest)
    (hr : o = .rst ∨ ∃ p : EdgeIn, o = .edge p ∧ p.rst = true) :
    ∃ u : State, stepWith cfg s = .next (resetBlocks u) ∧ u.tx = s.tx ∧ u.frames = s.frames ∧
      (o = .rst → u.samples = s.samples) ∧ ∀ p : EdgeIn, o = .edge p → SinkTakes p.rxbufRaddr s u := by
  obtain rfl | ⟨p, rfl, hp⟩ := hr
  · exact ⟨beginStep rest s, step_head cfg ho (offerWaits_rst _), rfl, rfl, fun _ => rfl, nofun⟩
  · obtain ⟨-, -, -, htx, hframes, -⟩ := sink_frame p.rxbufRaddr (beginStep rest s)
    refine ⟨onPort p.rxbufRaddr sinkRead (beginStep rest s), ?_, htx, hframes, nofun, fun q h => ?_⟩
    · rw [step_head cfg ho (offerWaits_edge _ p)]
      simp [runOffer, clockEdge, hp]
    · cases h
      exact sink_takes p.rxbufRaddr (beginStep rest s)

/-- Settles O38: the registers are those of `resetBlocks`, the histories those from before it. -/
theorem resetGivesTheResetValues : Obligations.ResetGivesTheResetValues := by
  intro cfg o rest s ho hr
  obtain ⟨u, hstep, htx, hframes, hrst, hedge⟩ := step_reset cfg ho hr
  exact ⟨resetBlocks u, hstep, rfl, rfl, rfl, rfl, rfl, readCell_absent, rfl, rfl, rfl, rfl, rfl, readCell_absent, rfl, rfl,
    rfl, rfl, htx, congrArg List.length htx, by simp [State.txSinceReset], rfl, hframes, hrst, hedge⟩

/-- Settles O54: a sink read samples `rxbuf_rdata` and changes no block. -/
theorem sinkSamplesTheBuffer : Obligations.SinkSamplesTheBuffer := by
  intro cfg a rest s ho
  obtain ⟨v, hsamples, hcell⟩ := sink_takes (some a) (beginStep rest s)
  refine ⟨sinkRead a (beginStep rest s), v, step_head cfg ho (offerWaits_sinkRead _ a), hsamples, hcell, rfl, rfl, rfl, rfl, rfl,
    fun h => readCell_of_le _ ?_⟩
  simp [h]

/-! ### The ports of `ENC` in `IDLE` -/

theorem txbufWrite_idle {i : Byte} (v : Byte) {s : State} (hidle : s.enc.phase = .idle) (hi : i.toNat ≤ 254) :
    txbufWrite i v s = reply .performed { s with enc := encStore i.toNat v s.enc } := by
  have hlt : ¬ Config.bufCap ≤ i.toNat := by simp only [Config.bufCap]; omega
  simp [txbufWrite, hidle, hlt]

theorem txbufWrite_idle_255 (v : Byte) {s : State} (hidle : s.enc.phase = .idle) :
    txbufWrite 255 v s = refuse .invalidArgument s := by
  simp [txbufWrite, hidle, Config.bufCap]

theorem encStart_idle (c n : Byte) {s : State} (hidle : s.enc.phase = .idle) :
    encStart c n s = reply .performed { s with enc := encLatch c n s.enc } := by
  simp [encStart, hidle]

/-- The write port changes no register of `ENC` but `TXBUF`. -/
theorem writePort_enc (w : Option (Byte × Byte)) (s : State) :
    (onPort w (fun w => txbufWrite w.1 w.2) s).enc =
      { s.enc with txbuf := (onPort w (fun w => txbufWrite w.1 w.2) s).enc.txbuf } := by
  cases w with
  | none => rfl
  | some w => obtain ⟨a, h⟩ | ⟨-, h⟩ := txbufWrite_cases w.1 w.2 s <;> simp [h, encStore]

/-- The request port writes no cell. -/
theorem requestPort_txbuf (r : Option (Byte × Byte)) (s : State) :
    (onPort r (fun r => encStart r.1 r.2) s).enc.txbuf = s.enc.txbuf := by
  cases r with
  | none => rfl
  | some r => obtain ⟨a, h⟩ | ⟨-, h⟩ := encStart_cases r.1 r.2 s <;> simp [h]

/-- The request port takes back nothing an offerer has been told. -/
theorem mem_requestPort_answers (r : Option (Byte × Byte)) {s : State} {a : Answer} (h : a ∈ s.answers) :
    a ∈ (onPort r (fun r => encStart r.1 r.2) s).answers := by
  cases r with
  | none => exact h
  | some r => obtain ⟨a, hs⟩ | ⟨-, hs⟩ := encStart_cases r.1 r.2 s <;> simp [hs, h]

/-! ### One edge without `rst` -/

/-- A step on such an edge is the sink's part, then `DEC`'s, then `ENC`'s. -/
theorem step_edge (cfg : Config.Parameters) {rx raddr : Option Byte} {w r : Option (Byte × Byte)} {ready : Bool}
    {rest : List Offer} {s : State} (ho : s.offers = .edge ⟨false, rx, w, r, ready, raddr⟩ :: rest) :
    stepWith cfg s = encEdge ⟨false, rx, w, r, ready, raddr⟩
      (onPort rx (decStep cfg) (onPort raddr sinkRead (beginStep rest s))) := by
  rw [step_head cfg ho (offerWaits_edge _ _)]
  simp [runOffer, clockEdge]

/-- What the write port and then the request port make of a state at an edge (R42, R104, R105). -/
def encPorts (w r : Option (Byte × Byte)) (s : State) : State :=
  onPort r (fun r => encStart r.1 r.2) (onPort w (fun w => txbufWrite w.1 w.2) s)

/-- In `IDLE` and with `tx_ready = 0`, `ENC`'s part of an edge is its two ports' (R42). -/
theorem encEdge_no_emit {p : EdgeIn} {s : State} (h : s.enc.phase = .idle ∨ p.txReady = false) :
    encEdge p s = .next (encPorts p.txbufWrite p.request s) := by
  obtain h | h := h <;> simp [encEdge, encPorts, h]

/-- While busy with `tx_ready = 1`, `ENC` emits after its two ports' part (R42). -/
theorem encEdge_emits {p : EdgeIn} {s : State} (hbusy : s.enc.phase ≠ .idle) (hready : p.txReady = true) :
    encEdge p s = encEmit (encPorts p.txbufWrite p.request s) := by
  simp [encEdge, encPorts, hbusy, hready]

/-- `ENC`'s part of an edge leaves the sink's and `DEC`'s part as it is. -/
theorem encEdge_takes {cfg : Config.Parameters} {rx raddr : Option Byte} {p : EdgeIn} {s u t : State}
    (hu : DecTakes cfg rx s u ∧ SinkTakes raddr s u) (h : encEdge p u = .next t) :
    DecTakes cfg rx s t ∧ SinkTakes raddr s t := by
  obtain ⟨hdec, hrx, hframes, hvalid, hsamples, -⟩ := encEdge_frame h
  exact takes_congr hu hdec hrx hframes hvalid hsamples

/-- Over an absent cell in `PAY` the emit is a fault (R109, R217). -/
theorem encEmit_absent {s : State} (hpay : s.enc.phase = .pay) (habsent : readCell s.enc.txbuf s.enc.count.toNat = none) :
    encEmit s = .fault .absentTxbufCell := by
  simp [encEmit, encOffer, hpay, habsent]

/-- Settles O52: in `IDLE` the edge is the sink's part, `DEC`'s part, the write and the start, in this order. -/
theorem writeAndStartAtOneEdge : Obligations.WriteAndStartAtOneEdge := by
  intro cfg rx w r ready raddr rest s ho hidle
  obtain ⟨hdec, hsink, henc, htx⟩ := edge_takes cfg rx raddr rest s
  rw [step_edge cfg ho]
  set u := onPort rx (decStep cfg) (onPort raddr sinkRead (beginStep rest s))
  have hu : u.enc.phase = .idle := henc ▸ hidle
  set m := onPort w (fun w => txbufWrite w.1 w.2) u with hm
  have hmenc : m.enc = { s.enc with txbuf := m.enc.txbuf } := henc ▸ writePort_enc w u
  have hmidle : m.enc.phase = .idle := by rw [hmenc]; exact hidle
  have hports : encEdge ⟨false, rx, w, r, ready, raddr⟩ u = .next (encPorts w r u) := encEdge_no_emit (.inl hu)
  obtain ⟨hdec', hsink'⟩ := encEdge_takes ⟨hdec, hsink⟩ hports
  obtain ⟨-, -, -, hptx, -⟩ := ports_frame u w r
  refine ⟨_, hports, hdec', hsink', hptx.trans htx, ?_, ?_, ?_, ?_, ?_⟩ <;> rw [encPorts, ← hm]
  · rintro i v rfl hi
    rw [requestPort_txbuf, hm, onPort_some, txbufWrite_idle v hu hi, reply_enc, encStore_txbuf, henc]
    exact ⟨readCell_writeCell_self _ _ (by omega), fun j hj => readCell_writeCell_other _ _ hj⟩
  · intro hw
    rw [requestPort_txbuf, ← henc]
    obtain rfl | ⟨v, rfl⟩ := hw
    · rfl
    · rw [hm, onPort_some, txbufWrite_idle_255 v hu]
      rfl
  · rintro v rfl
    refine mem_requestPort_answers r ?_
    rw [hm, onPort_some, txbufWrite_idle_255 v hu]
    simp [refuse]
  · rintro c n rfl
    simp [encStart_idle c n hmidle]
  · rintro rfl
    exact hmenc

/-- Settles O53: while busy the write and the start at the edge leave `ENC` alone, so it emits or holds. -/
theorem busyEdgeOnlyEmits : Obligations.BusyEdgeOnlyEmits := by
  intro cfg rx w r ready raddr rest s ho hbusy
  obtain ⟨hdec, hsink, henc, htx⟩ := edge_takes cfg rx raddr rest s
  rw [step_edge cfg ho]
  set u := onPort rx (decStep cfg) (onPort raddr sinkRead (beginStep rest s))
  have hu : u.enc.phase ≠ .idle := henc ▸ hbusy
  obtain ⟨hpenc, hptx⟩ : (encPorts w r u).enc = s.enc ∧ (encPorts w r u).tx = s.tx :=
    henc ▸ htx ▸ ports_busy hu w r
  refine ⟨fun b hready hb => ?_, fun hready hpay habsent => ?_, fun hready => ?_⟩
  · have hemit : encEdge ⟨false, rx, w, r, ready, raddr⟩ u = .next _ :=
      (encEdge_emits hu hready).trans (encEmit_of_offer (hpenc ▸ hb))
    obtain ⟨hdec', hsink'⟩ := encEdge_takes ⟨hdec, hsink⟩ hemit
    refine ⟨_, hemit, hdec', hsink', ?_⟩
    simp [hpenc, hptx]
  · rw [encEdge_emits hu hready]
    exact encEmit_absent (hpenc ▸ hpay) (hpenc ▸ habsent)
  · have hhold : encEdge ⟨false, rx, w, r, ready, raddr⟩ u = .next (encPorts w r u) := encEdge_no_emit (.inr hready)
    obtain ⟨hdec', hsink'⟩ := encEdge_takes ⟨hdec, hsink⟩ hhold
    exact ⟨_, hhold, hdec', hsink', hpenc, hptx⟩

end Sys2Proof.Machine
end

section
/-! SUPPORT. One step, whatever offer it takes: a `RESET`, or one move of `ENC` and a run of `DEC`; and from it what the streams of
R50 record since `RESET` (R62, R133, R203). -/

namespace Sys2Proof.Machine

/-- A step that is no `RESET`: `ENC` makes one move and `DEC` runs over the bytes it takes. -/
theorem step_move {cfg : Config.Parameters} {s t : State} (hr : s.takesReset = false) (h : stepWith cfg s = .next t) :
    EncMove s.enc s.tx t.enc t.tx ∧ t.txStart = s.txStart ∧ ∃ bs : List Byte, t.dec = (decRun cfg.resyncRetest s.dec bs).1 ∧
      t.rx = s.rx ++ bs ∧ t.frames = s.frames ++ (decRun cfg.resyncRetest s.dec bs).2 := by
  obtain ⟨o, rest, htake, hstep⟩ | ⟨-, hstep⟩ := step_cases cfg s <;> rw [hstep] at h
  · exact runOffer_move (s := beginStep rest s) (takesReset_eq htake ▸ hr) h
  · cases h
    exact ⟨.hold, rfl, [], by simp⟩

/-- A step that is a `RESET` sets up both blocks and `RX` anew, and keeps the bytes on `TX` and the frames delivered (R203). -/
theorem step_of_takesReset {cfg : Config.Parameters} {s t : State} (hr : s.takesReset = true) (h : stepWith cfg s = .next t) :
    t.dec = Dec.reset ∧ t.enc = Enc.reset ∧ t.rx = [] ∧ t.tx = s.tx ∧ t.frames = s.frames ∧ t.txStart = s.tx.length := by
  obtain ⟨o, rest, htake, hstep⟩ | ⟨htake, -⟩ := step_cases cfg s
  · rw [hstep] at h
    obtain ⟨hdec, henc, hrx, htx, hframes, -, hstart⟩ := runOffer_reset (takesReset_eq htake ▸ hr) h
    exact ⟨hdec, henc, hrx, htx, hframes, hstart⟩
  · simp [State.takesReset, htake] at hr

/-- `DEC` run on over more input is where `DEC_RUN` over the longer input ends. -/
theorem State.DecodesItsInput.run {cfg : Config.Parameters} {s t : State} {bs : List Byte} (hs : s.DecodesItsInput cfg)
    (hdec : t.dec = (decRun cfg.resyncRetest s.dec bs).1) (hrx : t.rx = s.rx ++ bs)
    (hframes : t.frames = s.frames ++ (decRun cfg.resyncRetest s.dec bs).2) : t.DecodesItsInput cfg := by
  obtain ⟨hstate, earlier, hlast⟩ := hs
  unfold State.DecodesItsInput
  rw [hrx, decRun_append, hstate, hdec, hframes, ← hlast]
  exact ⟨rfl, earlier, (List.append_assoc _ _ _).symm⟩

/-- Settles O44: a `RESET` leaves no input and the reset decoder, and any other step runs `DEC` over the bytes it adds to `RX`. -/
theorem decoderStateIsAFunctionOfItsInput : Obligations.DecoderStateIsAFunctionOfItsInput := by
  intro cfg s t hs h
  change stepWith cfg s = .next t at h
  cases hr : s.takesReset with
  | true =>
    obtain ⟨hdec, -, hrx, -⟩ := step_of_takesReset hr h
    rw [State.DecodesItsInput, hrx, hdec]
    exact ⟨rfl, List.nil_suffix⟩
  | false =>
    obtain ⟨-, -, bs, hdec, hrx, hframes⟩ := step_move hr h
    exact hs.run hdec hrx hframes

/-- Settles O48: a move of `ENC` adds at the end of `TX`, behind position 0, and a `RESET` puts position 0 at that end. -/
theorem txPositionsCountFromReset : Obligations.TxPositionsCountFromReset := by
  intro cfg s t hs h
  unfold State.txSinceReset
  refine ⟨fun hr => ?_, fun hr => ?_⟩
  · obtain ⟨hmove, hstart, -⟩ := step_move hr h
    rw [hstart]
    obtain htx | ⟨b, hb, htx⟩ := hmove.tx_cases <;> rw [htx]
    · exact .inl rfl
    · exact .inr ⟨b, hb, List.drop_append_of_le_length hs.start⟩
  · obtain ⟨-, -, -, htx, -, hstart⟩ := step_of_takesReset hr h
    rw [htx, hstart, List.drop_length]

end Sys2Proof.Machine
end

section
/-! SUPPORT. `TX` is whole frames and then the frame in progress (R63, R68, R110): each emit adds to the frame in progress the byte that
its encoding has next, and ends it at its last byte (R106 to R109). -/

namespace Sys2Proof.Machine

/-! ### The part of a frame already sent, by phase -/

theorem inFlight_idle {e : Enc} {part : List Byte} (hp : e.phase = .idle) : InFlight e part ↔ part = [] := by
  simp [InFlight, hp]

theorem inFlight_pre {e : Enc} {part : List Byte} (hp : e.phase = .pre) :
    InFlight e part ↔ part = Config.preamble.take e.count.toNat := by simp [InFlight, hp]

theorem inFlight_cmd {e : Enc} {part : List Byte} (hp : e.phase = .cmd) : InFlight e part ↔ part = Config.preamble := by
  simp [InFlight, hp]

theorem inFlight_len {e : Enc} {part : List Byte} (hp : e.phase = .len) :
    InFlight e part ↔ part = Config.preamble ++ [e.command] := by simp [InFlight, hp]

theorem inFlight_pay {e : Enc} {part : List Byte} (hp : e.phase = .pay) :
    InFlight e part ↔ ∃ p : List Byte, p.length = e.count.toNat ∧ e.Holds p ∧
      part = Config.preamble ++ [e.command] ++ [e.length] ++ p := by simp [InFlight, hp]

/-- A payload that the first cells hold is held with the byte of the next cell at its end. -/
theorem Enc.Holds.snoc {e : Enc} {p : List Byte} {b : Byte} (hp : e.Holds p) (hb : readCell e.txbuf p.length = some b) :
    e.Holds (p ++ [b]) := by
  intro j hj
  rw [List.length_append, List.length_singleton] at hj
  obtain hlt | rfl : j < p.length ∨ j = p.length := by omega
  · rw [hp j hlt, List.getElem?_append_left hlt]
  · rw [hb, List.getElem?_concat_length]

/-! ### One emit, by phase -/

/-- What is sent since the last whole frame is the part sent of the frame in progress, or one whole frame that has just ended. -/
def InFlightOrWhole (e : Enc) (part : List Byte) : Prop :=
  InFlight e part ∨ ∃ f : Frame, f.payload.length ≤ Config.maxLen ∧ part = frameBytes f.command f.payload ∧ InFlight e []

/-- R106: in `PRE` the part sent grows along the preamble. -/
theorem inFlight_emit_pre {e : Enc} {part : List Byte} {b : Byte} (hp : e.phase = .pre) (h : InFlight e part)
    (hb : encOffer e = some b) : InFlight (encAdvance e) (part ++ [b]) := by
  have hbyte : Config.preamble[e.count.toNat]? = some b := by simpa [encOffer, hp, preambleByte] using hb
  have hpart : part ++ [b] = Config.preamble.take (e.count.toNat + 1) := by
    rw [(inFlight_pre hp).mp h, List.take_add_one, hbyte, Option.toList_some]
  by_cases hc : e.count = 3
  · have he : encAdvance e = { e with phase := .cmd, count := 0 } := by simp [encAdvance, hp, hc]
    rw [he, inFlight_cmd rfl, hpart, hc]
    rfl
  · have he : encAdvance e = { e with count := e.count + 1 } := by simp only [encAdvance, hp, if_neg hc]
    have hlt : e.count.toNat < 4 := (List.getElem?_eq_some_iff.mp hbyte).1
    have hcount : (e.count + 1).toNat = e.count.toNat + 1 := by bv_omega
    rw [he, inFlight_pre (e := { e with count := e.count + 1 }) hp, hpart, hcount]

/-- R107: in `CMD` the command goes out. -/
theorem inFlight_emit_cmd {e : Enc} {part : List Byte} {b : Byte} (hp : e.phase = .cmd) (h : InFlight e part)
    (hb : encOffer e = some b) : InFlight (encAdvance e) (part ++ [b]) := by
  have hbyte : e.command = b := by simpa [encOffer, hp] using hb
  have he : encAdvance e = { e with phase := .len } := by simp [encAdvance, hp]
  rw [he, inFlight_len rfl, (inFlight_cmd hp).mp h, hbyte]

/-- R108: in `LEN` the length goes out, and a frame of length 0 ends. -/
theorem inFlight_emit_len {e : Enc} {part : List Byte} {b : Byte} (hinv : e.Inv) (hp : e.phase = .len)
    (h : InFlight e part) (hb : encOffer e = some b) : InFlightOrWhole (encAdvance e) (part ++ [b]) := by
  have hbyte : e.length = b := by simpa [encOffer, hp] using hb
  have hpart : part ++ [b] = Config.preamble ++ [e.command] ++ [e.length] := by rw [(inFlight_len hp).mp h, hbyte]
  by_cases hl : e.length = 0
  · have he : encAdvance e = { e with phase := .idle } := by simp [encAdvance, hp, hl]
    refine .inr ⟨⟨e.command, []⟩, Nat.zero_le _, ?_, ?_⟩
    · rw [hpart, hl]
      rfl
    · rw [he, inFlight_idle rfl]
  · have he : encAdvance e = { e with phase := .pay } := by simp only [encAdvance, hp, if_neg hl]
    have hcount : e.count = 0 := hinv.elsewhere (.inr (.inr hp))
    refine .inl ?_
    rw [he, inFlight_pay rfl, hpart]
    exact ⟨[], by simp [hcount], nofun, (List.append_nil _).symm⟩

/-- R109: in `PAY` the next payload byte goes out, and the frame ends with the last one. -/
theorem inFlight_emit_pay {e : Enc} {part : List Byte} {b : Byte} (hinv : e.Inv) (hp : e.phase = .pay)
    (h : InFlight e part) (hb : encOffer e = some b) : InFlightOrWhole (encAdvance e) (part ++ [b]) := by
  obtain ⟨p, hplen, hholds, rfl⟩ := (inFlight_pay hp).mp h
  have hcell : readCell e.txbuf p.length = some b := by rw [hplen]; simpa [encOffer, hp] using hb
  have hpb : (p ++ [b]).length = e.count.toNat + 1 := by simp [hplen]
  have hlt := hinv.payload hp
  have hbyte := e.length.isLt
  rw [List.append_assoc]
  by_cases hlast : e.count.toNat + 1 = e.length.toNat
  · have he : encAdvance e = { e with phase := .idle, count := 0 } := by simp [encAdvance, hp, hlast]
    refine .inr ⟨⟨e.command, p ++ [b]⟩, ?_, ?_, ?_⟩
    · rw [hpb, Config.maxLen]
      omega
    · rw [frameBytes, hpb, hlast, BitVec.ofNat_toNat, BitVec.setWidth_eq]
    · rw [he, inFlight_idle rfl]
  · have he : encAdvance e = { e with count := e.count + 1 } := by simp [encAdvance, hp, hlast]
    have hcount : (e.count + 1).toNat = e.count.toNat + 1 := by bv_omega
    refine .inl ?_
    rw [he, inFlight_pay (e := { e with count := e.count + 1 }) hp]
    exact ⟨p ++ [b], hpb.trans hcount.symm, hholds.snoc hcell, rfl⟩

/-- Every emit continues the frame in progress or ends it. -/
theorem inFlight_emit {e : Enc} {part : List Byte} {b : Byte} (hinv : e.Inv) (h : InFlight e part)
    (hb : encOffer e = some b) : InFlightOrWhole (encAdvance e) (part ++ [b]) := by
  cases hp : e.phase with
  | idle => simp [encOffer, hp] at hb
  | pre => exact .inl (inFlight_emit_pre hp h hb)
  | cmd => exact .inl (inFlight_emit_cmd hp h hb)
  | len => exact inFlight_emit_len hinv hp h hb
  | pay => exact inFlight_emit_pay hinv hp h hb

/-! ### One step -/

/-- Every move of `ENC` adds to `TX` what continues the frame in progress or ends it: a write and a start happen between frames and
send nothing (R104, R105, R110). -/
theorem EncMove.inFlight {e e' : Enc} {tx tx' part : List Byte} (hmove : EncMove e tx e' tx') (hinv : e.Inv)
    (h : InFlight e part) : ∃ out : List Byte, tx' = tx ++ out ∧ InFlightOrWhole e' (part ++ out) := by
  cases hmove with
  | hold => exact ⟨[], by simp, .inl (by simpa using h)⟩
  | store m hp _ =>
    obtain rfl := (inFlight_idle hp).mp h
    exact ⟨[], by simp, .inl ((inFlight_idle (e := { e with txbuf := m }) hp).mpr rfl)⟩
  | start c n m hp _ =>
    obtain rfl := (inFlight_idle hp).mp h
    exact ⟨[], by simp, .inl ((inFlight_pre rfl).mpr rfl)⟩
  | emit b hb => exact ⟨[b], rfl, inFlight_emit hinv h hb⟩

/-- Every move of `ENC` keeps `TX` whole frames and then the frame in progress, from the same point on. -/
theorem State.FramedFrom.move {t0 : List Byte} {s t : State} (hs : s.FramedFrom t0) (hinv : s.enc.Inv)
    (hmove : EncMove s.enc s.tx t.enc t.tx) : t.FramedFrom t0 := by
  obtain ⟨fs, part, hfs, hpart, htx⟩ := hs
  obtain ⟨out, htx', hinside | ⟨f, hf, hwhole, hnone⟩⟩ := hmove.inFlight hinv hpart <;> rw [htx] at htx'
  · exact ⟨fs, part ++ out, hfs, hinside, by rw [htx', List.append_assoc]⟩
  · refine ⟨fs ++ [f], [], fun g hg => ?_, hnone, by simp [htx', hwhole]⟩
    obtain hg | hg := List.mem_append.mp hg
    · exact hfs g hg
    · rwa [List.mem_singleton.mp hg]

/-- Settles O45: a step that is no `RESET` is one move of `ENC`, and after a `RESET` no frame is in progress and none stands behind
the bytes already sent. -/
theorem framesNeverInterleaveOnTx : Obligations.FramesNeverInterleaveOnTx := by
  intro cfg t0 s t hinv hs h
  change stepWith cfg s = .next t at h
  refine ⟨fun hr => ?_, fun hr => ?_⟩
  · obtain ⟨hmove, hstart, -⟩ := step_move hr h
    exact ⟨hs.move hinv.enc hmove, hstart⟩
  · obtain ⟨-, henc, -, htx, -, hstart⟩ := step_of_takesReset hr h
    exact ⟨htx, ⟨[], [], nofun, henc ▸ (inFlight_idle rfl).mpr rfl, by simp [htx]⟩, hstart⟩

end Sys2Proof.Machine
end

section
/-! SUPPORT. The codec and the opcode table agree (R80, R86, R93): the decoder gives a frame the row its header selects, the generic
row exactly where no command row does, and so decoder and encoder are inverse to each other on the well-formed instructions. -/

namespace Sys2Proof

/-! ### The row of a frame -/

/-- The generic row is the only one with its mnemonic (R93). -/
theorem Instr.mnemonic_eq_frameAny_iff {i : Instr} : i.mnemonic = "FRAME_ANY" ↔ i = .frameAny i.command i.payload := by
  cases i <;> simp [Instr.mnemonic, Instr.command, Instr.payload]

theorem emptyRow_mnemonic (i : Instr) (c : Byte) (p : List Byte) :
    (emptyRow i c p).mnemonic = if p.length = 0 then i.mnemonic else "FRAME_ANY" := by
  obtain ⟨hp, h⟩ | ⟨hp, h⟩ := emptyRow_cases i c p
  · rw [h, hp, List.length_nil, if_pos rfl]
  · rw [h, if_neg (mt List.length_eq_zero_iff.mp hp), Instr.mnemonic]

theorem oneByteRow_mnemonic {i : Byte → Instr} {m : String} (hi : ∀ b, (i b).mnemonic = m) (c : Byte) (p : List Byte) :
    (oneByteRow i c p).mnemonic = if p.length = 1 then m else "FRAME_ANY" := by
  obtain ⟨b, hp, h⟩ | ⟨hp, h⟩ := oneByteRow_cases i c p
  · rw [h, hp, hi, List.length_singleton, if_pos rfl]
  · rw [h, if_neg hp, Instr.mnemonic]

theorem twoWordRow_mnemonic {i : Word32 → Word32 → Instr} {m : String} (hi : ∀ v w, (i v w).mnemonic = m) (c : Byte)
    (p : List Byte) : (twoWordRow i c p).mnemonic = if p.length = 8 then m else "FRAME_ANY" := by
  obtain ⟨v, w, hp, h⟩ | ⟨hp, h⟩ := twoWordRow_cases i c p
  · rw [h, hp, hi]
    exact (if_pos rfl).symm
  · rw [h, if_neg hp, Instr.mnemonic]

theorem header_eq_iff {c n c' n' : Byte} : header c n = header c' n' ↔ c = c' ∧ n = n' :=
  ⟨header_inj, fun ⟨hc, hn⟩ => hc ▸ hn ▸ rfl⟩

/-- Row by row: the command tells the row, and the payload's size whether a row of a fixed size has it (R93). -/
theorem rowOfHeader_instrOfFrame (f : Frame) {n : Byte} (hn : f.payload.length = n.toNat) :
    rowOfHeader (header f.command n) = some (instrOfFrame f).mnemonic := by
  have hlen (k : Byte) : n = k ↔ f.payload.length = k.toNat := by rw [hn, BitVec.toNat_inj]
  have hrow := rowOfHeader_header f.command n
  simp only [header_eq_iff, hlen, and_true] at hrow
  rw [hrow]
  refine instrOfFrame_cases (P := fun i => _ = some i.mnemonic) f ?_ ?_ ?_ ?_ ?_ ?_ ?_ ?_ ?_ ?_ ?_ ?_ ?_ <;> intro hc
  case refine_1 => rw [twoWordRow_mnemonic (m := "SET_FREQUENCY") fun _ _ => rfl, hc]; simp [apply_ite]
  case refine_2 => rw [oneByteRow_mnemonic (m := "SET_MODE") fun _ => rfl, hc]; simp [apply_ite]
  case refine_7 => rw [oneByteRow_mnemonic (m := "GREEN_LED_CONTROL") fun _ => rfl, hc]; simp [apply_ite]
  case refine_8 => rw [oneByteRow_mnemonic (m := "SET_TX_POWER") fun _ => rfl, hc]; simp [apply_ite]
  case refine_3 | refine_5 | refine_6 | refine_11 => rw [emptyRow_mnemonic, hc]; simp [Instr.mnemonic, apply_ite]
  case refine_4 | refine_9 | refine_10 | refine_12 => simp [hc, Instr.mnemonic]
  case refine_13 =>
    simp only [List.mem_cons, List.not_mem_nil, or_false, not_or] at hc
    simp only [hc, false_and, if_false, Instr.mnemonic]

/-- Settles O3: the row of a frame is the one its header selects. -/
theorem decoderFollowsTheOpcodeTable : Obligations.DecoderFollowsTheOpcodeTable := fun c _ p hn =>
  rowOfHeader_instrOfFrame ⟨c, p⟩ hn

/-- `commandRowSelects` says which headers a command row of the table selects: the others fall to the generic row (R93). -/
theorem rowOfHeader_eq_frameAny_iff (c n : Byte) :
    rowOfHeader (header c n) = some "FRAME_ANY" ↔ commandRowSelects c n.toNat = false := by
  have hlen (k : Byte) : n = k ↔ n.toNat = k.toNat := BitVec.toNat_inj.symm
  rw [rowOfHeader_header]
  simp only [header_eq_iff, hlen, and_true, apply_ite (· = some "FRAME_ANY")]
  simp [commandRowSelects, and_assoc, Config.idSetFrequency, Config.idSetMode, Config.idFlushTxBuffer, Config.idWriteTxData,
    Config.idWatchdogRequest, Config.idGetReceiveData, Config.idGreenLedControl, Config.idSetTxPower, Config.idDebug,
    Config.idSetSeed, Config.idGetVersion, Config.idSetTxBuffer]

/-- The decoder answers the generic row exactly where no command row selects the frame's header (R93). -/
theorem instrOfFrame_eq_frameAny_iff {f : Frame} (h : f.payload.length ≤ 255) :
    instrOfFrame f = .frameAny f.command f.payload ↔ commandRowSelects f.command f.payload.length = false := by
  have hn := toNat_ofNat_length h
  have hrow := rowOfHeader_eq_frameAny_iff f.command (BitVec.ofNat 8 f.payload.length)
  rwa [hn, rowOfHeader_instrOfFrame f hn.symm, Option.some_inj, Instr.mnemonic_eq_frameAny_iff, instrOfFrame_command,
    instrOfFrame_payload] at hrow

/-! ### Decoder and encoder -/

/-- The frame of a well-formed instruction has the row of that instruction and its operands. -/
theorem instrOfFrame_frame {i : Instr} (h : i.WellFormed) : instrOfFrame i.frame = i := by
  cases i with
  | setFrequency rx tx => exact congrArg₂ Instr.setFrequency (ofLe32_extract rx) (ofLe32_extract tx)
  | frameAny c p =>
    have hrow : commandRowSelects c p.length = false := by simpa using ((Bool.and_eq_true _ _).mp h).2
    exact (instrOfFrame_eq_frameAny_iff (f := ⟨c, p⟩) h.payload_length).mpr hrow
  | _ => rfl

/-- A payload that fits the length byte makes a well-formed instruction, whatever its row (R83). -/
theorem instrOfFrame_wellFormed {f : Frame} (h : f.payload.length ≤ 255) : (instrOfFrame f).WellFormed := by
  have hp := instrOfFrame_payload f
  cases hi : instrOfFrame f with
  | writeTxData p | debug p | setSeed p | setTxBuffer p =>
    rw [hi] at hp
    obtain rfl : p = f.payload := hp
    exact decide_eq_true h
  | frameAny c p =>
    have hc := instrOfFrame_command f
    rw [hi] at hp hc
    obtain rfl : p = f.payload := hp
    obtain rfl : c = f.command := hc
    have hrow := (instrOfFrame_eq_frameAny_iff h).mp hi
    simp [Instr.WellFormed, Instr.wellFormed, Config.maxLen, h, hrow]
  | _ => rfl

/-- A byte sequence decodes when it is one frame with nothing behind it (R86). -/
theorem decode_eq_ok_iff {bs : List Byte} {i : Instr} :
    decode bs = .ok i ↔ ∃ f : Frame, splitFrame bs = .ok (f, []) ∧ instrOfFrame f = i := by
  unfold decode decodeFront
  rcases splitFrame bs with e | ⟨f, _ | ⟨b, r⟩⟩ <;> simp

/-- Settles O1: the encoding splits into the instruction's frame and nothing, and that frame has the instruction's row. -/
theorem encodedInstructionDecodesToItself : Obligations.EncodedInstructionDecodesToItself := by
  intro i h
  have hsplit := splitFrame_frameBytes i.command i.payload [] h.payload_length
  rw [List.append_nil] at hsplit
  exact decode_eq_ok_iff.mpr ⟨i.frame, hsplit, instrOfFrame_frame h⟩

/-- Settles O2: the bytes are one frame's encoding, and the decoder keeps that frame's command and payload. -/
theorem decodedBytesAreTheEncoding : Obligations.DecodedBytesAreTheEncoding := by
  intro bs i h
  obtain ⟨f, hsplit, rfl⟩ := decode_eq_ok_iff.mp h
  obtain ⟨hbs, hlen⟩ := splitFrame_ok hsplit
  refine ⟨instrOfFrame_wellFormed hlen, ?_⟩
  rw [encode, instrOfFrame_command, instrOfFrame_payload, hbs, List.append_nil]

end Sys2Proof
end

section
/-! SUPPORT. `ENC_EMIT` phase by phase (R106 to R109, R114): the byte on offer, the registers after it, and the ports of `ENC`. -/

namespace Sys2Proof.Machine

/-! ### The byte on offer, by phase -/

theorem encOffer_pre {e : Enc} (hp : e.phase = .pre) : encOffer e = Config.preamble[e.count.toNat]? := by
  simp [encOffer, hp, preambleByte]

theorem encOffer_cmd {e : Enc} (hp : e.phase = .cmd) : encOffer e = some e.command := by simp [encOffer, hp]

theorem encOffer_len {e : Enc} (hp : e.phase = .len) : encOffer e = some e.length := by simp [encOffer, hp]

theorem encOffer_pay {e : Enc} (hp : e.phase = .pay) : encOffer e = readCell e.txbuf e.count.toNat := by
  simp [encOffer, hp]

/-! ### The registers after the emit, by phase -/

/-- `enc.count` as a number counts up by one (R113). -/
theorem ofNat_toNat_add_one (x : Byte) : BitVec.ofNat 8 (x.toNat + 1) = x + 1 := by
  rw [BitVec.ofNat_add, BitVec.ofNat_toNat, BitVec.setWidth_eq]
  rfl

theorem encAdvance_pre {e : Enc} (hp : e.phase = .pre) :
    encAdvance e =
      if e.count.toNat = 3 then { e with phase := .cmd, count := 0 }
      else { e with count := BitVec.ofNat 8 (e.count.toNat + 1) } := by
  have h3 : e.count.toNat = 3 ↔ e.count = 3 := BitVec.toNat_inj (y := 3#8)
  simp only [encAdvance, hp, h3, ofNat_toNat_add_one]

theorem encAdvance_cmd {e : Enc} (hp : e.phase = .cmd) : encAdvance e = { e with phase := .len } := by
  simp [encAdvance, hp]

theorem encAdvance_len {e : Enc} (hp : e.phase = .len) :
    encAdvance e = { e with phase := if e.length = 0 then .idle else .pay } := by
  simp only [encAdvance, hp]
  split <;> rfl

theorem encAdvance_pay {e : Enc} (hp : e.phase = .pay) :
    encAdvance e =
      if e.count.toNat + 1 = e.length.toNat then { e with phase := .idle, count := 0 }
      else { e with count := BitVec.ofNat 8 (e.count.toNat + 1) } := by
  simp only [encAdvance, hp, ofNat_toNat_add_one]

/-! ### `tx_last`, by phase -/

theorem txLast_len {s : State} (hp : s.enc.phase = .len) : txLast s = true ↔ s.enc.length = 0 := by simp [txLast, hp]

theorem txLast_pay {s : State} (hp : s.enc.phase = .pay) :
    txLast s = true ↔ s.enc.count.toNat + 1 = s.enc.length.toNat := by simp [txLast, hp]

/-- In the other phases another byte follows, or none is on offer (R106, R107, R114). -/
theorem txLast_eq_false {s : State} (hlen : s.enc.phase ≠ .len) (hpay : s.enc.phase ≠ .pay) : txLast s = false := by
  simp [txLast, hlen, hpay]

/-! ### The emit -/

/-- Settles O18: the byte on offer is the preamble's, and the registers move on. -/
theorem emitInPhasePre : Obligations.EmitInPhasePre := by
  intro cfg s hp
  refine ⟨?_, txLast_eq_false (by simp [hp]) (by simp [hp])⟩
  rintro k b rfl hb
  rw [runOffer, encEmit_of_offer ((encOffer_pre hp).trans hb), encAdvance_pre hp]
  rfl

/-- Settles O19: the byte on offer is the command. -/
theorem emitInPhaseCmd : Obligations.EmitInPhaseCmd := by
  intro cfg s hp
  refine ⟨?_, txLast_eq_false (by simp [hp]) (by simp [hp])⟩
  rw [runOffer, encEmit_of_offer (encOffer_cmd hp), encAdvance_cmd hp]
  rfl

/-- Settles O20: the byte on offer is the length, and a frame of length 0 ends with it. -/
theorem emitInPhaseLen : Obligations.EmitInPhaseLen := by
  intro cfg s hp
  refine ⟨_, encEmit_of_offer (encOffer_len hp), ?_, txLast_len hp, fun hl => ?_⟩
  · rw [encAdvance_len hp]
    rfl
  · simp [encBusy, reqReady, txbufReady, txValid, encAdvance_len hp, hl]

/-- Settles O21: the byte on offer is the cell's, and below the length the last index is the one whose successor is the length. -/
theorem emitInPhasePay : Obligations.EmitInPhasePay := by
  intro cfg s hp hlt
  have hlast : s.enc.count.toNat + 1 = s.enc.length.toNat ↔ s.enc.count.toNat = s.enc.length.toNat - 1 := by omega
  refine ⟨fun b hb => ?_, encEmit_absent hp, (txLast_pay hp).trans hlast⟩
  rw [runOffer, encEmit_of_offer ((encOffer_pay hp).trans hb), encAdvance_pay hp]
  simp only [hlast]
  rfl

theorem encEmit_idle {s : State} (hidle : s.enc.phase = .idle) : encEmit s = .next (notEnabled s) := by
  simp [encEmit, hidle]

/-- Settles O22: in `IDLE` the emit is not enabled. -/
theorem emitInPhaseIdleIsNotEnabled : Obligations.EmitInPhaseIdleIsNotEnabled := fun _ _ hidle =>
  ⟨encEmit_idle hidle, by simp [txValid, hidle]⟩

/-! ### The write and the start -/

theorem txbufWrite_busy (i v : Byte) {s : State} (hbusy : s.enc.phase ≠ .idle) : txbufWrite i v s = notEnabled s := by
  simp [txbufWrite, hbusy]

theorem encStart_busy (c n : Byte) {s : State} (hbusy : s.enc.phase ≠ .idle) : encStart c n s = notEnabled s := by
  simp [encStart, hbusy]

/-- Settles O16: the cell written reads the byte and every other cell as before. -/
theorem txbufWriteStoresOneCell : Obligations.TxbufWriteStoresOneCell := by
  intro cfg i v s
  refine ⟨fun hidle hi => ?_, ?_, fun hbusy => congrArg Host.Outcome.next (txbufWrite_busy i v hbusy)⟩
  · refine ⟨_, congrArg Host.Outcome.next (txbufWrite_idle v hidle hi), ?_, fun j hj => ?_, rfl⟩
    · exact readCell_writeCell_self _ v (by omega)
    · exact readCell_writeCell_other _ v hj
  · rintro hidle rfl
    exact congrArg Host.Outcome.next (txbufWrite_idle_255 v hidle)

/-- Settles O17: the start latches the request, and then the first preamble byte is on offer. -/
theorem encStartLatchesTheRequest : Obligations.EncStartLatchesTheRequest := fun _ c n _ =>
  ⟨fun hidle => ⟨_, congrArg Host.Outcome.next (encStart_idle c n hidle), rfl, rfl, rfl, rfl, rfl, rfl⟩,
    fun hbusy => congrArg Host.Outcome.next (encStart_busy c n hbusy)⟩

end Sys2Proof.Machine
end

section
/-! SUPPORT. `ENCODE` and `SEND` (R100 to R103, R110): the fields of an encoded frame, that one frame at most stands at the start of a byte
sequence, and what a request that is accepted, waits or is refused leaves. -/

namespace Sys2Proof.Machine

/-! ### `ENCODE` -/

/-- Settles O5: up to 255 bytes the encoding is `frameBytes`, over 255 it is refused. -/
theorem encodeIsPreambleCommandLengthPayload : Obligations.EncodeIsPreambleCommandLengthPayload := fun _ _ =>
  ⟨encodeRequest_ok, encodeRequest_error⟩

theorem encodeRequest_eq_ok_iff {c : Byte} {p e : List Byte} :
    encodeRequest c p = .ok e ↔ p.length ≤ 255 ∧ frameBytes c p = e := by
  by_cases h : p.length ≤ 255
  · simp [encodeRequest_ok h, h]
  · simp [encodeRequest_error (c := c) (Nat.not_le.mp h), h]

/-- Payload byte `i` stands at wire offset `6 + i` (R80). -/
theorem frameBytes_getElem?_payload (c : Byte) (p : List Byte) (i : Nat) : (frameBytes c p)[6 + i]? = p[i]? := by
  rw [frameBytes_eq, Nat.add_comm]
  rfl

/-- Two encoded frames at the start of one byte sequence are one frame, with the same bytes behind it. -/
theorem frameBytes_append_inj {f g : Frame} {r r' : List Byte} (hf : f.payload.length ≤ 255) (hg : g.payload.length ≤ 255)
    (h : frameBytes f.command f.payload ++ r = frameBytes g.command g.payload ++ r') : f = g ∧ r = r' := by
  have hsplit := splitFrame_frameBytes f.command f.payload r hf
  rw [h, splitFrame_frameBytes g.command g.payload r' hg] at hsplit
  obtain ⟨hframe, hrest⟩ := Prod.mk.inj (Except.ok.inj hsplit)
  exact ⟨hframe.symm, hrest.symm⟩

/-- The frames of a concatenation are told from its bytes: the first frame splits off, and the rest is a concatenation again. -/
theorem flatMap_frameBytes_inj {fs gs : List Frame} (hfs : ∀ f ∈ fs, f.payload.length ≤ 255)
    (hgs : ∀ g ∈ gs, g.payload.length ≤ 255)
    (h : fs.flatMap (fun f => frameBytes f.command f.payload) = gs.flatMap (fun g => frameBytes g.command g.payload)) :
    fs = gs := by
  induction fs generalizing gs with
  | nil =>
    cases gs with
    | nil => rfl
    | cons g gs => simp [frameBytes_eq] at h
  | cons f fs ih =>
    cases gs with
    | nil => simp [frameBytes_eq] at h
    | cons g gs =>
      rw [List.forall_mem_cons] at hfs hgs
      rw [List.flatMap_cons, List.flatMap_cons] at h
      obtain ⟨rfl, hrest⟩ := frameBytes_append_inj hfs.1 hgs.1 h
      rw [ih hfs.2 hgs.2 hrest]

/-- Settles O6: the fields stand at their offsets, and the length byte alone says where a frame ends. -/
theorem encodedFramesAreSelfDelimiting : Obligations.EncodedFramesAreSelfDelimiting := by
  refine ⟨fun c p e h => ?_, fun c c' p p' e e' r r' he he' h => ?_, fun fs gs => flatMap_frameBytes_inj⟩
  · obtain ⟨hp, rfl⟩ := encodeRequest_eq_ok_iff.mp h
    have hlen := frameBytes_length c p
    refine ⟨hlen, by omega, by omega, rfl, rfl, ?_, fun i _ => frameBytes_getElem?_payload c p i⟩
    exact congrArg some (toNat_ofNat_length hp)
  · obtain ⟨hp, rfl⟩ := encodeRequest_eq_ok_iff.mp he
    obtain ⟨hp', rfl⟩ := encodeRequest_eq_ok_iff.mp he'
    obtain ⟨hframe, hrest⟩ := frameBytes_append_inj (f := ⟨c, p⟩) (g := ⟨c', p'⟩) hp hp' h
    exact ⟨congrArg Frame.command hframe, congrArg Frame.payload hframe, hrest⟩

/-! ### `SEND` -/

/-- R103: in `IDLE` a request with a payload that fits is accepted. -/
theorem send_accepted (c : Byte) {p : List Byte} {s : State} (hp : p.length ≤ 255) (hidle : s.enc.phase = .idle) :
    ∃ t, send c p s = .next t ∧ Accepted c p s t := by
  refine ⟨_, send_idle hp hidle, rfl, rfl, rfl, toNat_ofNat_length hp, fun j hj => ?_, fun j hj => ?_, rfl, rfl, rfl, rfl, rfl, rfl,
    rfl, rfl, rfl, rfl⟩
  · simpa using readCell_encLoad p 0 j s.enc (by omega) hj
  · exact readCell_encLoad_other p 0 j s.enc (by omega)

/-- The cells of a payload that is held are present. -/
theorem Enc.Holds.payloadPresent {e : Enc} {p : List Byte} (hholds : e.Holds p) (hlen : e.length.toNat = p.length) :
    e.PayloadPresent := by
  intro _ j hj
  rw [hlen] at hj
  rw [hholds j hj, List.getElem?_eq_getElem hj, Option.isSome_some]

/-- Settles O49: a request that is accepted has its whole payload loaded, and any other leaves `ENC` as it was. -/
theorem instructionsKeepThePayloadPresent : Obligations.InstructionsKeepThePayloadPresent := by
  intro i s t hs h
  rw [exec_eq_send] at h
  obtain ⟨a, -, hreply⟩ | ⟨hidle, hp, -⟩ := send_cases i.command i.payload s
  · rw [hreply] at h
    cases h
    exact hs
  · obtain ⟨u, hu, haccepted⟩ := send_accepted i.command hp hidle
    rw [hu] at h
    cases h
    exact haccepted.payload.payloadPresent haccepted.length

/-- Settles O11: the request is a `SEND` met while busy. -/
theorem requestWaitsWhileBusy : Obligations.RequestWaitsWhileBusy := by
  intro i s hi hbusy
  rw [exec_eq_send]
  exact send_busy hi.payload_length hbusy

/-- Settles O12: each of the five is the `SEND` of the oversized payload under its own command. -/
theorem oversizedPayloadIsRefused : Obligations.OversizedPayloadIsRefused := fun _ _ s h =>
  ⟨send_oversized s h, send_oversized s h, send_oversized s h, send_oversized s h, send_oversized s h, send_oversized s h⟩

end Sys2Proof.Machine
end

section
/-! SUPPORT. The serializer computes `ENCODE` (R111): how many bytes of the frame in progress are out is read off the registers of `ENC`,
each emit sends the byte of the encoding at that place, and so a started frame is sent whole. -/

namespace Sys2Proof.Machine

/-! ### How many bytes of the frame are out -/

/-- `k` bytes of the frame that `enc.command` and `enc.length` describe are out: in `IDLE` all of it, and before that the place `enc.phase`
and `enc.count` give, with the counter in its range (R34, R106 to R109). -/
def Enc.Sent (e : Enc) (k : Nat) : Prop :=
  match e.phase with
  | .idle => k = 6 + e.length.toNat
  | .pre => k = e.count.toNat ∧ k ≤ 3
  | .cmd => k = 4 ∧ e.count = 0
  | .len => k = 5 ∧ e.count = 0
  | .pay => k = 6 + e.count.toNat ∧ k < 6 + e.length.toNat

theorem sent_idle {e : Enc} {k : Nat} (hp : e.phase = .idle) : e.Sent k ↔ k = 6 + e.length.toNat := by
  simp [Enc.Sent, hp]

theorem sent_pre {e : Enc} {k : Nat} (hp : e.phase = .pre) : e.Sent k ↔ k = e.count.toNat ∧ k ≤ 3 := by
  simp [Enc.Sent, hp]

theorem sent_cmd {e : Enc} {k : Nat} (hp : e.phase = .cmd) : e.Sent k ↔ k = 4 ∧ e.count = 0 := by simp [Enc.Sent, hp]

theorem sent_len {e : Enc} {k : Nat} (hp : e.phase = .len) : e.Sent k ↔ k = 5 ∧ e.count = 0 := by simp [Enc.Sent, hp]

theorem sent_pay {e : Enc} {k : Nat} (hp : e.phase = .pay) :
    e.Sent k ↔ k = 6 + e.count.toNat ∧ k < 6 + e.length.toNat := by simp [Enc.Sent, hp]

/-- In every reachable state some number of bytes is out. -/
theorem Enc.Inv.exists_sent {e : Enc} (hinv : e.Inv) : ∃ k, e.Sent k := by
  cases hp : e.phase with
  | idle => exact ⟨_, (sent_idle hp).mpr rfl⟩
  | pre => exact ⟨_, (sent_pre hp).mpr ⟨rfl, hinv.preamble hp⟩⟩
  | cmd => exact ⟨_, (sent_cmd hp).mpr ⟨rfl, hinv.elsewhere (.inr (.inl hp))⟩⟩
  | len => exact ⟨_, (sent_len hp).mpr ⟨rfl, hinv.elsewhere (.inr (.inr hp))⟩⟩
  | pay => exact ⟨_, (sent_pay hp).mpr ⟨rfl, Nat.add_lt_add_left (hinv.payload hp) 6⟩⟩

/-- While the frame is in progress, a byte is to come. -/
theorem Enc.Sent.lt {e : Enc} {k : Nat} (h : e.Sent k) (hbusy : e.phase ≠ .idle) : k < 6 + e.length.toNat := by
  cases hp : e.phase with
  | idle => exact absurd hp hbusy
  | pre => have := (sent_pre hp).mp h; omega
  | cmd => have := (sent_cmd hp).mp h; omega
  | len => have := (sent_len hp).mp h; omega
  | pay => exact ((sent_pay hp).mp h).2

/-- In `IDLE`, and only there, the whole frame is out. -/
theorem Enc.Sent.idle_iff {e : Enc} {k : Nat} (h : e.Sent k) : e.phase = .idle ↔ k = 6 + e.length.toNat :=
  ⟨fun hidle => (sent_idle hidle).mp h, fun hk => by_contra fun hbusy => (h.lt hbusy).ne hk⟩

/-- `tx_last` is 1 exactly at the last byte of the frame. -/
theorem Enc.Sent.txLast_iff {s : State} {k : Nat} (h : s.enc.Sent k) : txLast s = true ↔ k = 5 + s.enc.length.toNat := by
  cases hp : s.enc.phase with
  | idle =>
    have hk : k ≠ 5 + s.enc.length.toNat := by have := (sent_idle hp).mp h; omega
    simp [txLast, hp, hk]
  | pre =>
    have hk : k ≠ 5 + s.enc.length.toNat := by have := (sent_pre hp).mp h; omega
    simp [txLast, hp, hk]
  | cmd =>
    have hk : k ≠ 5 + s.enc.length.toNat := by have := (sent_cmd hp).mp h; omega
    simp [txLast, hp, hk]
  | len =>
    obtain ⟨rfl, -⟩ := (sent_len hp).mp h
    simp [txLast_len hp, ← BitVec.toNat_inj]
  | pay =>
    obtain ⟨rfl, -⟩ := (sent_pay hp).mp h
    rw [txLast_pay hp]
    omega

/-- Every emit sends one byte more, the last one into `IDLE`. -/
theorem Enc.Sent.advance {e : Enc} {k : Nat} (h : e.Sent k) (hbusy : e.phase ≠ .idle) : (encAdvance e).Sent (k + 1) := by
  cases hp : e.phase with
  | idle => exact absurd hp hbusy
  | pre =>
    obtain ⟨rfl, hk⟩ := (sent_pre hp).mp h
    rw [encAdvance_pre hp]
    split
    · next hlast => exact (sent_cmd rfl).mpr ⟨by omega, rfl⟩
    · have hcount := toNat_ofNat_length (n := e.count.toNat + 1) (by omega)
      exact (sent_pre (e := { e with count := BitVec.ofNat 8 (e.count.toNat + 1) }) hp).mpr ⟨hcount.symm, by omega⟩
  | cmd =>
    obtain ⟨rfl, hcount⟩ := (sent_cmd hp).mp h
    rw [encAdvance_cmd hp]
    exact (sent_len rfl).mpr ⟨rfl, hcount⟩
  | len =>
    obtain ⟨rfl, hcount⟩ := (sent_len hp).mp h
    rw [encAdvance_len hp]
    split
    · next hl => exact (sent_idle rfl).mpr (by simp [hl])
    · next hl =>
      have : e.length.toNat ≠ 0 := fun h0 => hl (BitVec.eq_of_toNat_eq h0)
      exact (sent_pay rfl).mpr ⟨by simp [hcount], by simp only; omega⟩
  | pay =>
    obtain ⟨rfl, hk⟩ := (sent_pay hp).mp h
    have hbyte := e.length.isLt
    rw [encAdvance_pay hp]
    split
    · next hlast => exact (sent_idle rfl).mpr (by simp only; omega)
    · have hcount := toNat_ofNat_length (n := e.count.toNat + 1) (by omega)
      refine (sent_pay (e := { e with count := BitVec.ofNat 8 (e.count.toNat + 1) }) hp).mpr ⟨?_, by simp only; omega⟩
      rw [hcount, Nat.add_assoc]

/-- The byte on offer is the encoding's at that place; there is none in `IDLE`, where the encoding has ended. -/
theorem Enc.Sent.encOffer_eq {e : Enc} {k : Nat} {p : List Byte} (h : e.Sent k) (hlen : e.length.toNat = p.length)
    (hholds : e.Holds p) : encOffer e = (frameBytes e.command p)[k]? := by
  cases hp : e.phase with
  | idle =>
    obtain rfl := (sent_idle hp).mp h
    rw [hlen, frameBytes_getElem?_payload]
    simp [encOffer, hp]
  | pre =>
    obtain ⟨rfl, hk⟩ := (sent_pre hp).mp h
    rw [encOffer_pre hp, frameBytes, List.append_assoc, List.append_assoc, List.getElem?_append_left]
    rw [preamble_length]
    omega
  | cmd =>
    obtain ⟨rfl, -⟩ := (sent_cmd hp).mp h
    rw [encOffer_cmd hp]
    rfl
  | len =>
    obtain ⟨rfl, -⟩ := (sent_len hp).mp h
    rw [encOffer_len hp, frameBytes_eq, ← hlen, BitVec.ofNat_toNat, BitVec.setWidth_eq]
    rfl
  | pay =>
    obtain ⟨rfl, hk⟩ := (sent_pay hp).mp h
    rw [encOffer_pay hp, frameBytes_getElem?_payload]
    exact hholds _ (by omega)

/-! ### A run of emits -/

/-- The first `k` of the emits that send the frame of the payload `p`, just started in `s`, end in `t`; the others are still offered. -/
structure SentFrom (p : List Byte) (s t : State) (k : Nat) : Prop where
  sent : t.enc.Sent k
  command : t.enc.command = s.enc.command
  length : t.enc.length = s.enc.length
  txbuf : t.enc.txbuf = s.enc.txbuf
  tx : t.tx = s.tx ++ (frameBytes s.enc.command p).take k
  dec : t.dec = s.dec
  frames : t.frames = s.frames
  offers : t.offers = List.replicate (6 + p.length - k) .encEmit

/-- A step that emits the byte on offer. -/
theorem step_encEmit (cfg : Config.Parameters) {s : State} {rest : List Offer} {b : Byte} (ho : s.offers = .encEmit :: rest)
    (hb : encOffer s.enc = some b) :
    stepWith cfg s = .next (reply .performed (outByte b { beginStep rest s with enc := encAdvance s.enc })) := by
  rw [step_head cfg ho (offerWaits_encEmit _), runOffer]
  exact encEmit_of_offer (s := beginStep rest s) hb

/-- One emit more sends the byte of the encoding that comes next. -/
theorem SentFrom.step {cfg : Config.Parameters} {p : List Byte} {s t : State} {k : Nat} (h : SentFrom p s t k)
    (hlen : s.enc.length.toNat = p.length) (hholds : s.enc.Holds p) (hk : k < 6 + p.length) :
    ∃ u, stepWith cfg t = .next u ∧ SentFrom p s u (k + 1) := by
  have hoffers : t.offers = .encEmit :: List.replicate (6 + p.length - (k + 1)) .encEmit := by
    rw [h.offers, ← List.replicate_succ]
    congr 1
    omega
  have hlength : t.enc.length.toNat = p.length := by rw [h.length, hlen]
  have hbusy : t.enc.phase ≠ .idle := by
    rw [Ne, h.sent.idle_iff, hlength]
    omega
  have hnext : encOffer t.enc = (frameBytes s.enc.command p)[k]? := by
    rw [← h.command]
    exact h.sent.encOffer_eq hlength fun j hj => h.txbuf ▸ hholds j hj
  obtain ⟨b, hb⟩ : ∃ b, (frameBytes s.enc.command p)[k]? = some b :=
    ⟨_, List.getElem?_eq_getElem (by rwa [frameBytes_length])⟩
  refine ⟨_, step_encEmit cfg hoffers (hnext.trans hb), ?_⟩
  exact {
    sent := h.sent.advance hbusy
    command := (encAdvance_command _).trans h.command
    length := (encAdvance_length _).trans h.length
    txbuf := (encAdvance_txbuf _).trans h.txbuf
    tx := by simp [h.tx, List.take_add_one, hb]
    dec := h.dec
    frames := h.frames
    offers := rfl }

/-- R111: emits offered one after the other send a frame just started byte by byte. -/
theorem run_encEmits (cfg : Config.Parameters) {p : List Byte} {s : State} (hstart : s.enc.Sent 0)
    (hlen : s.enc.length.toNat = p.length) (hholds : s.enc.Holds p) {k : Nat} (hk : k ≤ 6 + p.length) :
    ∃ t, (machineWith cfg).run k { s with offers := List.replicate (6 + p.length) .encEmit } = .next t ∧ SentFrom p s t k := by
  induction k with
  | zero => exact ⟨_, run_zero cfg _, hstart, rfl, rfl, rfl, by simp, rfl, rfl, rfl⟩
  | succ k ih =>
    obtain ⟨t, hrun, ht⟩ := ih (by omega)
    obtain ⟨u, hstep, hu⟩ := ht.step (cfg := cfg) hlen hholds hk
    exact ⟨u, by rw [run_add cfg k 1 hrun, run_succ_of_next cfg 0 hstep, run_zero], hu⟩

/-- Settles O14: after `ENC_START` no byte is out, and each emit sends the next one. -/
theorem startedFrameIsSentWhole : Obligations.StartedFrameIsSentWhole := by
  intro cfg c n p s hidle hn hholds k hk
  rw [encStart_idle c n hidle]
  obtain ⟨t, hrun, ht⟩ := run_encEmits cfg (p := p) (s := reply .performed { s with enc := encLatch c n s.enc })
    ((sent_pre rfl).mpr ⟨rfl, Nat.zero_le 3⟩) hn.symm hholds hk
  have hlength : t.enc.length.toNat = p.length := (congrArg BitVec.toNat ht.length).trans hn.symm
  exact ⟨t, hrun, ht.tx, hlength ▸ ht.sent.txLast_iff, hlength ▸ ht.sent.idle_iff, ht.txbuf⟩

/-- Settles O15: an instruction accepted has its frame started with its payload in `TXBUF`, and the emits send it. -/
theorem acceptedInstructionIsSentWhole : Obligations.AcceptedInstructionIsSentWhole := by
  intro cfg i s hi hidle
  obtain ⟨t, hsend, haccepted⟩ := send_accepted i.command hi.payload_length hidle
  have hstart : t.enc.Sent 0 := (sent_pre haccepted.phase).mpr (by simp [haccepted.count])
  have hsize : (encode i).length = 6 + i.payload.length := frameBytes_length _ _
  rw [exec_eq_send, hsize]
  obtain ⟨u, hrun, hu⟩ := run_encEmits cfg hstart haccepted.length haccepted.payload (Nat.le_refl _)
  refine ⟨t, u, hsend, hrun, ?_, hu.sent.idle_iff.mpr ?_, hu.dec.trans haccepted.dec, hu.frames.trans haccepted.frames⟩
  · rw [hu.tx, haccepted.command, haccepted.tx, ← hsize]
    exact congrArg _ List.take_length
  · rw [hu.length, haccepted.length]

end Sys2Proof.Machine
end

section
/-! SUPPORT. Which offer a step takes and what it then is (R42, R103, R105, R180): the instruction whose bytes are offered, an offer behind
the requests that wait, a failure outside the blocks. -/

namespace Sys2Proof.Machine

/-- Bytes that decode run as their instruction. -/
theorem runFrame_ok {bytes : List Byte} {i : Instr} (h : decode bytes = .ok i) (s : State) : runFrame bytes s = exec i s := by
  simp [runFrame, fetch, h]

/-- Settles O39: in `IDLE` no offer waits, so the frame at the head is taken and runs. -/
theorem stepRunsTheDecodedInstruction : Obligations.StepRunsTheDecodedInstruction := by
  intro bytes i rest s ho hdecode hidle
  have hstep (cfg : Config.Parameters) : stepWith cfg s = exec i (beginStep rest s) :=
    (step_head cfg ho (offerWaits_idle hidle _)).trans (runFrame_ok hdecode _)
  exact ⟨hstep, hstep Config.standard⟩

/-! ### The requests that wait while `ENC` is busy -/

theorem offerWaits_frame {e : Enc} (hbusy : e.phase ≠ .idle) {bytes : List Byte} {i : Instr} (h : decode bytes = .ok i) :
    offerWaits e (.frame bytes) = true := by
  simp [offerWaits, hbusy, fetch, h, Except.isOk, Except.toBool]

theorem offerWaits_send {e : Enc} (hbusy : e.phase ≠ .idle) (c : Byte) {p : List Byte} (h : p.length ≤ 255) :
    offerWaits e (.send c p) = true := by
  simp [offerWaits, hbusy, Config.maxLen, h]

theorem offerWaits_call {e : Enc} (hbusy : e.phase ≠ .idle) {op : FacadeOp} {i : Instr} (h : expand op = .ok i) :
    offerWaits e (.call op) = true := by
  simp [offerWaits, hbusy, h, Except.isOk, Except.toBool]

theorem offerWaits_encStart {e : Enc} (hbusy : e.phase ≠ .idle) (c n : Byte) : offerWaits e (.encStart c n) = true := by
  simp [offerWaits, hbusy]

/-- Settles O40: the requests in front all wait, so the step takes the offer behind them. -/
theorem waitingRequestLetsOthersProceed : Obligations.WaitingRequestLetsOthersProceed := by
  intro cfg ws o rest s ho hbusy hws hproceeds
  have hwait : ∀ w ∈ ws, offerWaits s.enc w = true := by
    intro w hw
    obtain ⟨bytes, i, rfl, h⟩ | ⟨c, p, rfl, h⟩ | ⟨c, n, rfl⟩ | ⟨op, i, rfl, h⟩ := hws w hw
    · exact offerWaits_frame hbusy h
    · exact offerWaits_send hbusy c h
    · exact offerWaits_encStart hbusy c n
    · exact offerWaits_call hbusy h
  rw [stepWith, ho, takeOffer_append rest hwait hproceeds]
  rfl

/-- Settles O51: the step tells the failure and does nothing else. -/
theorem outsideFailuresLeaveTheBlocksAlone : Obligations.OutsideFailuresLeaveTheBlocksAlone := fun cfg k _ _ ho =>
  ⟨_, step_head cfg ho (offerWaits_environmentFailure _ k), rfl⟩

end Sys2Proof.Machine
end

section
/-! SUPPORT. Progress under a fair transport (R112, R194): while a frame is in progress no step takes back a byte sent and every step with
`tx_ready = 1` sends one more, so the frame cannot last for ever. -/

namespace Sys2Proof.Machine

/-- An emit while busy moves the counters on. -/
theorem encEmit_advances {s t : State} (hbusy : s.enc.phase ≠ .idle) (h : encEmit s = .next t) : t.enc = encAdvance s.enc := by
  obtain ⟨hidle, -⟩ | ⟨-, b, -, rfl⟩ := encEmit_next h
  · exact absurd hidle hbusy
  · rfl

/-- While busy, a step with `tx_ready = 1` emits, as an offer of its own or at an edge. -/
theorem step_advances_of_transportReady {cfg : Config.Parameters} {s t : State} (hbusy : s.enc.phase ≠ .idle)
    (hready : transportReady s.enc s.offers = true) (h : stepWith cfg s = .next t) : t.enc = encAdvance s.enc := by
  unfold transportReady at hready
  split at hready
  · next rest htake =>
    rw [stepWith, htake] at h
    exact encEmit_advances (s := beginStep rest s) hbusy h
  · next p rest htake =>
    obtain ⟨htx, hrst⟩ : p.txReady = true ∧ p.rst = false := by simpa using hready
    obtain ⟨-, hsink, -⟩ := sink_frame p.rxbufRaddr (beginStep rest s)
    obtain ⟨hrx, -⟩ := rx_part cfg p.rx (onPort p.rxbufRaddr sinkRead (beginStep rest s))
    simp only [stepWith, htake, runOffer, clockEdge, hrst, Bool.false_eq_true, if_false] at h
    set u := onPort p.rx (decStep cfg) (onPort p.rxbufRaddr sinkRead (beginStep rest s))
    have hu : u.enc = s.enc := hrx.trans hsink
    obtain ⟨hports, -⟩ : (encPorts p.txbufWrite p.request u).enc = u.enc ∧ _ := ports_busy (hu ▸ hbusy) _ _
    rw [encEdge_emits (hu ▸ hbusy) htx] at h
    rw [encEmit_advances (by rwa [hports, hu]) h, hports, hu]
  · cases hready

/-- While busy, a move of `ENC` holds or emits (R104, R105). -/
theorem EncMove.of_busy {e e' : Enc} {tx tx' : List Byte} (h : EncMove e tx e' tx') (hbusy : e.phase ≠ .idle) :
    e' = e ∨ e' = encAdvance e := by
  cases h with
  | hold => exact .inl rfl
  | store m hidle => exact absurd hidle hbusy
  | start c n m hidle => exact absurd hidle hbusy
  | emit b => exact .inr rfl

/-- A step from a busy state to a busy one stays in the same frame: it is no `RESET`, so it holds `ENC` or emits. -/
theorem step_holds_or_advances {cfg : Config.Parameters} {s t : State} (hbusy : s.enc.phase ≠ .idle) (hbusy' : t.enc.phase ≠ .idle)
    (h : stepWith cfg s = .next t) : t.enc = s.enc ∨ t.enc = encAdvance s.enc := by
  cases hr : s.takesReset with
  | true =>
    obtain ⟨-, henc, -⟩ := step_of_takesReset hr h
    rw [henc] at hbusy'
    exact absurd rfl hbusy'
  | false =>
    obtain ⟨hmove, -⟩ := step_move hr h
    exact hmove.of_busy hbusy

/-- At least `k` bytes of the frame of length `n` in progress are out. -/
def Enc.SentAtLeast (e : Enc) (n : Byte) (k : Nat) : Prop := e.length = n ∧ ∃ j, k ≤ j ∧ e.Sent j

theorem Enc.SentAtLeast.advance {e : Enc} {n : Byte} {k : Nat} (h : e.SentAtLeast n k) (hbusy : e.phase ≠ .idle) :
    (encAdvance e).SentAtLeast n (k + 1) := by
  obtain ⟨hn, j, hkj, hj⟩ := h
  exact ⟨(encAdvance_length e).trans hn, j + 1, Nat.succ_le_succ hkj, hj.advance hbusy⟩

theorem Enc.SentAtLeast.mono {e : Enc} {n : Byte} {j k : Nat} (h : e.SentAtLeast n k) (hjk : j ≤ k) : e.SentAtLeast n j := by
  obtain ⟨hn, i, hki, hi⟩ := h
  exact ⟨hn, i, hjk.trans hki, hi⟩

/-- Before the frame's end not all of its bytes are out. -/
theorem Enc.SentAtLeast.lt {e : Enc} {n : Byte} {k : Nat} (h : e.SentAtLeast n k) (hbusy : e.phase ≠ .idle) :
    k < 6 + n.toNat := by
  obtain ⟨rfl, j, hkj, hj⟩ := h
  exact hkj.trans_lt (hj.lt hbusy)

/-! ### An endless run -/

/-- The state that step `n` of an endless run meets, with what the environment offers before it (R194). -/
def stepMeets (env : Nat → List Offer) (s : Nat → State) (n : Nat) : State := { s n with offers := (s n).offers ++ env n }

theorem EndlessRun.step {cfg : Config.Parameters} {env : Nat → List Offer} {s : Nat → State} (hrun : EndlessRun cfg env s)
    (n : Nat) : stepWith cfg (stepMeets env s n) = .next (s (n + 1)) := hrun n

theorem stepMeets_inv (env : Nat → List Offer) {s : Nat → State} {n : Nat} (h : (s n).Inv) : (stepMeets env s n).Inv :=
  ⟨h.dec, h.enc, h.start⟩

theorem EndlessRun.inv {cfg : Config.Parameters} {env : Nat → List Offer} {s : Nat → State} (hrun : EndlessRun cfg env s)
    (h : (s 0).Inv) (n : Nat) : (s n).Inv := by
  induction n with
  | zero => exact h
  | succ n ih => exact stepKeepsTheInvariant cfg _ _ (stepMeets_inv env ih) (hrun.step n)

/-- While the frame lasts, no byte sent is taken back. -/
theorem EndlessRun.sentAtLeast_of_le {cfg : Config.Parameters} {env : Nat → List Offer} {s : Nat → State}
    (hrun : EndlessRun cfg env s) {n : Byte} {k m m' : Nat} (hbusy : ∀ i, m ≤ i → (s i).enc.phase ≠ .idle)
    (hm : m ≤ m') (h : (s m).enc.SentAtLeast n k) : (s m').enc.SentAtLeast n k := by
  induction m', hm using Nat.le_induction with
  | base => exact h
  | succ i hi ih =>
    obtain hhold | hemit := step_holds_or_advances (s := stepMeets env s i) (hbusy i hi) (hbusy (i + 1) (by omega)) (hrun.step i)
    · exact hhold ▸ ih
    · exact hemit ▸ (ih.advance (hbusy i hi)).mono (Nat.le_succ k)

/-- A frame that never ends would have any number of bytes out: the transport takes the one on offer again and again. -/
theorem EndlessRun.sentAtLeast {cfg : Config.Parameters} {env : Nat → List Offer} {s : Nat → State}
    (hrun : EndlessRun cfg env s) (hfair : FairTransport env s) {n : Nat} (hinv : (s n).enc.Inv)
    (hbusy : ∀ i, n ≤ i → (s i).enc.phase ≠ .idle) (k : Nat) :
    ∃ m, n ≤ m ∧ (s m).enc.SentAtLeast (s n).enc.length k := by
  induction k with
  | zero =>
    obtain ⟨j, hj⟩ := hinv.exists_sent
    exact ⟨n, Nat.le_refl n, rfl, j, Nat.zero_le j, hj⟩
  | succ k ih =>
    obtain ⟨m, hnm, hm⟩ := ih
    obtain ⟨i, hmi, hready⟩ := hfair m fun i hi => decide_eq_true (hbusy i (hnm.trans hi))
    have hni := hnm.trans hmi
    have hi := hrun.sentAtLeast_of_le (fun j hj => hbusy j (hnm.trans hj)) hmi hm
    refine ⟨i + 1, by omega, ?_⟩
    rw [step_advances_of_transportReady (s := stepMeets env s i) (hbusy i hni) hready (hrun.step i)]
    exact hi.advance (hbusy i hni)

/-- Settles O47: a frame that never ended would have more bytes out than it has. -/
theorem fairTransportLetsEveryFrameEnd : Obligations.FairTransportLetsEveryFrameEnd := by
  intro cfg env s hrun hfair hinv n
  by_contra hnever
  have hbusy (i : Nat) (hi : n ≤ i) : (s i).enc.phase ≠ .idle := fun hidle => hnever ⟨i, hi, hidle⟩
  obtain ⟨m, hnm, hm⟩ := hrun.sentAtLeast hfair (hrun.inv hinv n).enc hbusy (6 + (s n).enc.length.toNat)
  exact Nat.lt_irrefl _ (hm.lt (hbusy m hnm))

end Sys2Proof.Machine
end

section
/-! SUPPORT. `DEC_STEP` one phase at a time (R120 to R132, R142): what the byte does to the registers, and the step of the machine that
takes it. -/

namespace Sys2Proof.Machine

/-! ### A step that takes one byte -/

/-- The byte at the head of the offers is taken, whatever state `DEC` is in. -/
theorem step_decStep (cfg : Config.Parameters) {b : Byte} {rest : List Offer} {s : State} (ho : s.offers = .decStep b :: rest) :
    stepWith cfg s = .next (decStep cfg b (beginStep rest s)) :=
  step_head cfg ho (offerWaits_decStep _ b)

/-- The step where the byte completes no frame. -/
theorem step_decStep_of_none {cfg : Config.Parameters} {b : Byte} {rest : List Offer} {s : State} {d : Dec}
    (ho : s.offers = .decStep b :: rest) (h : decStepWith cfg.resyncRetest b s.dec = (d, none)) :
    stepWith cfg s = .next { s with
      dec := d, frameValid := false, rx := s.rx ++ [b], answers := [.performed], draws := s.draws + 1, offers := rest } := by
  rw [step_decStep cfg ho, decStep, beginStep_dec, h]
  rfl

/-- The step where the byte completes a frame. -/
theorem step_decStep_of_some {cfg : Config.Parameters} {b : Byte} {rest : List Offer} {s : State} {d : Dec} {f : Frame}
    (ho : s.offers = .decStep b :: rest) (h : decStepWith cfg.resyncRetest b s.dec = (d, some f)) :
    stepWith cfg s = .next { s with
      dec := d, frameValid := true, frames := s.frames ++ [f], rx := s.rx ++ [b], answers := [.performed],
      draws := s.draws + 1, offers := rest } := by
  rw [step_decStep cfg ho, decStep, beginStep_dec, h]
  rfl

/-- Settles O32: a byte completes one frame or none, and one completed leaves `SYNC(0)`. -/
theorem decoderTakesEveryByte : Obligations.DecoderTakesEveryByte := by
  intro cfg b rest s ho
  refine ⟨_, step_decStep cfg ho, by simp, by simp, by simp, by simp, ?_⟩
  cases hf : (decStepWith cfg.resyncRetest b s.dec).2 with
  | none => exact .inl (by simp [hf])
  | some f =>
    obtain ⟨hphase, hindex⟩ := decStepWith_emits hf
    exact .inr ⟨f, by simp [hf], by simp [hf], by simpa using hphase, by simpa using hindex⟩

/-! ### Phase `SYNC` -/

/-- The preamble's first byte stands at no other index (R5), which is why re-testing a byte against it is enough (R124). -/
theorem preambleByte_eq_first_iff {k : Nat} : preambleByte k = some 0x71 ↔ k = 0 := by
  match k with
  | 0 | 1 | 2 | 3 => simp [preambleByte, Config.preamble]
  | k + 4 => simp [preambleByte, Config.preamble]

/-- R121: the expected byte advances. -/
theorem decStepWith_sync_match (r : Bool) {b : Byte} {d : Dec} (hp : d.phase = .sync)
    (hb : preambleByte d.syncIndex.toNat = some b) :
    decStepWith r b d = ({ d with
      syncIndex := BitVec.ofNat 3 (d.syncIndex.toNat + 1),
      phase := if d.syncIndex.toNat + 1 = 4 then .readCommand else .sync }, none) := by
  have h3 : d.syncIndex = 3 ↔ d.syncIndex.toNat + 1 = 4 := by
    rw [← BitVec.toNat_inj]
    simp
  rw [decStepWith_sync r b hp, decSync, if_pos hb]
  by_cases h : d.syncIndex = 3
  · simp [h]
  · rw [if_neg h, if_neg (h3.not.mp h), ← hp, BitVec.ofNat_add, BitVec.ofNat_toNat, BitVec.setWidth_eq]
    rfl

/-- R122, R124: any other byte leaves the index that the variant gives. -/
theorem decStepWith_sync_mismatch (r : Bool) {b : Byte} {d : Dec} (hp : d.phase = .sync)
    (hb : preambleByte d.syncIndex.toNat ≠ some b) :
    decStepWith r b d = ({ d with syncIndex := resyncIndex r b }, none) := by
  rw [decStepWith_sync r b hp, decSync, if_neg hb]

@[simp] theorem resyncIndex_false (b : Byte) : resyncIndex false b = 0 := rfl

@[simp] theorem resyncIndex_true (b : Byte) : resyncIndex true b = if b = 0x71 then 1 else 0 := by
  simp [resyncIndex, preambleByte, Config.preamble, eq_comm]

/-- Re-testing matters to the preamble's first byte alone. -/
theorem resyncIndex_of_ne (r : Bool) {b : Byte} (hb : b ≠ 0x71) : resyncIndex r b = 0 := by
  cases r with
  | false => rfl
  | true => rw [resyncIndex_true, if_neg hb]

/-- Settles O24: the byte expected advances the index. -/
theorem syncMatchAdvances : Obligations.SyncMatchAdvances := fun _ _ _ _ ho hp hb =>
  ⟨_, step_decStep_of_none ho (decStepWith_sync_match _ hp hb), rfl⟩

/-- Settles O25: the default build does not look at the byte again. -/
theorem syncMismatchDiscards : Obligations.SyncMismatchDiscards := by
  intro cfg b rest s hcfg ho hp hb
  refine ⟨_, step_decStep_of_none ho (decStepWith_sync_mismatch _ hp hb), ?_⟩
  rw [hcfg, resyncIndex_false]

/-- Settles O27: the other build compares the byte with the preamble's first. -/
theorem syncMismatchRetestsTheByte : Obligations.SyncMismatchRetestsTheByte := by
  intro cfg b rest s hcfg ho hp hb
  refine ⟨_, step_decStep_of_none ho (decStepWith_sync_mismatch _ hp hb), ?_⟩
  rw [hcfg, resyncIndex_true]

/-- Outside `SYNC` no rule reads `RESYNC_RETEST` (R8). -/
theorem decStepWith_variant_of_not_sync (r r' : Bool) (b : Byte) {d : Dec} (hp : d.phase ≠ .sync) :
    decStepWith r b d = decStepWith r' b d := by
  cases h : d.phase with
  | sync => exact absurd h hp
  | readCommand => rw [decStepWith_readCommand r b h, decStepWith_readCommand r' b h]
  | readLength => rw [decStepWith_readLength r b h, decStepWith_readLength r' b h]
  | readPayload => rw [decStepWith_readPayload r b h, decStepWith_readPayload r' b h]

/-- In `SYNC` the variants agree on a byte that matches, and on one that is not the preamble's first. -/
theorem decStepWith_variant_of_sync (r r' : Bool) {b : Byte} {d : Dec} (hp : d.phase = .sync)
    (h : preambleByte d.syncIndex.toNat = some b ∨ b ≠ 0x71) : decStepWith r b d = decStepWith r' b d := by
  by_cases hb : preambleByte d.syncIndex.toNat = some b
  · rw [decStepWith_sync_match r hp hb, decStepWith_sync_match r' hp hb]
  · have hne : b ≠ 0x71 := h.resolve_left hb
    rw [decStepWith_sync_mismatch r hp hb, decStepWith_sync_mismatch r' hp hb, resyncIndex_of_ne r hne, resyncIndex_of_ne r' hne]

/-- The preamble's first byte is a mismatch wherever bytes are matched already. -/
theorem preambleByte_ne_first {d : Dec} (hk : d.syncIndex ≠ 0) : preambleByte d.syncIndex.toNat ≠ some 0x71 := by
  rw [Ne, preambleByte_eq_first_iff]
  exact fun h => hk (BitVec.eq_of_toNat_eq h)

/-- Settles O26: the variants differ at a mismatch on the preamble's first byte, and that byte matches in `SYNC(0)` alone. -/
theorem retestVariantDiffersOnlyAtPreambleStart : Obligations.RetestVariantDiffersOnlyAtPreambleStart := by
  refine fun b d _ => ⟨?_, fun hother => ?_⟩
  · rintro ⟨hp, hk, rfl⟩
    have hb := preambleByte_ne_first hk
    exact ⟨decStepWith_sync_mismatch true hp hb, decStepWith_sync_mismatch false hp hb⟩
  · by_cases hp : d.phase = .sync
    · refine decStepWith_variant_of_sync true false hp ?_
      by_cases hb : b = 0x71
      · have hk : d.syncIndex = 0 := by_contra fun hk => hother ⟨hp, hk, hb⟩
        exact .inl (by rw [hb, hk]; rfl)
      · exact .inr hb
    · exact decStepWith_variant_of_not_sync true false b hp

/-! ### Phases `READ_COMMAND` and `READ_LENGTH` -/

/-- R128: length 0 completes the frame with the empty payload. -/
theorem decStepWith_readLength_zero (r : Bool) {d : Dec} (hp : d.phase = .readLength) :
    decStepWith r 0 d =
      ({ d with pendingLength := 0, filledCount := 0, phase := .sync, syncIndex := 0 }, some ⟨d.pendingCommand, []⟩) :=
  decStepWith_readLength r 0 hp

/-- R128: any other length goes to the payload. -/
theorem decStepWith_readLength_of_ne (r : Bool) {b : Byte} {d : Dec} (hp : d.phase = .readLength) (hb : b ≠ 0) :
    decStepWith r b d = ({ d with pendingLength := b, filledCount := 0, phase := .readPayload }, none) := by
  rw [decStepWith_readLength r b hp, decReadLength, if_neg hb]

/-- Settles O28: the byte is the pending command. -/
theorem readCommandStoresTheByte : Obligations.ReadCommandStoresTheByte := fun _ b _ _ ho hp =>
  ⟨_, step_decStep_of_none ho (decStepWith_readCommand _ b hp), rfl⟩

/-- Settles O29: the byte is the pending length, and only length 0 completes a frame. -/
theorem readLengthStoresTheByte : Obligations.ReadLengthStoresTheByte := by
  refine fun cfg b rest s ho hp => ⟨?_, fun hb => ?_⟩
  · rintro rfl
    exact ⟨_, step_decStep_of_some ho (decStepWith_readLength_zero _ hp), rfl⟩
  · exact ⟨_, step_decStep_of_none ho (decStepWith_readLength_of_ne _ hp hb), rfl⟩

/-! ### Phase `READ_PAYLOAD` -/

/-- The first cells of a buffer are present and are these bytes. -/
def Memory.Holds (m : Memory) (p : List Byte) : Prop := ∀ j, j < p.length → readCell m j = p[j]?

/-- A write behind the bytes held adds one to them. -/
theorem Memory.Holds.writeCell_end {m : Memory} {p : List Byte} (h : m.Holds p) (b : Byte) (hp : p.length < 255) :
    (writeCell m p.length b).Holds (p ++ [b]) := by
  intro j hj
  rw [List.length_append, List.length_singleton] at hj
  by_cases hlast : j = p.length
  · rw [hlast, readCell_writeCell_self m b hp, List.getElem?_concat_length]
  · rw [readCell_writeCell_other m b hlast, List.getElem?_append_left (by omega), h j (by omega)]

/-- The copy that `emit` makes of cells that are present is the bytes held (R130). -/
theorem Memory.Holds.readCells_eq {m : Memory} {p : List Byte} (h : m.Holds p) : readCells m p.length = p := by
  refine List.ext_getElem (readCells_length m p.length) fun j _ hj => ?_
  have hcell := h j hj
  rw [List.getElem?_eq_getElem hj] at hcell
  simp [readCells, hcell]

/-- `DEC` is in `READ_PAYLOAD` and `q` is what `RXBUF` holds of the payload so far (R25, R131). -/
structure Dec.Collected (d : Dec) (q : List Byte) : Prop where
  phase : d.phase = .readPayload
  count : d.filledCount.toNat = q.length
  cells : d.rxbuf.Holds q

/-- In every reachable state of `READ_PAYLOAD` some bytes are collected (R131). -/
theorem Dec.Inv.collected {d : Dec} (h : d.Inv) (hp : d.phase = .readPayload) :
    d.Collected (readCells d.rxbuf d.filledCount.toNat) := by
  refine ⟨hp, (readCells_length _ _).symm, fun j hj => ?_⟩
  rw [readCells_length] at hj
  exact (readCells_getElem? _ _ j hj (h.present hp j hj)).symm

/-- R129: a byte that is not the last goes to its cell. -/
theorem Dec.Collected.step_more (r : Bool) (b : Byte) {d : Dec} {q : List Byte} (h : d.Collected q)
    (hmore : q.length + 1 < d.pendingLength.toNat) :
    decStepWith r b d =
      ({ d with rxbuf := writeCell d.rxbuf q.length b, filledCount := BitVec.ofNat 8 (q.length + 1) }, none) := by
  have hfilled : d.filledCount + 1 = BitVec.ofNat 8 (q.length + 1) := by rw [← h.count, ofNat_toNat_add_one]
  rw [decStepWith_readPayload r b h.phase]
  simp only [decReadPayload, h.count, if_neg hmore.ne, hfilled]

/-- One byte more is collected after it. -/
theorem Dec.Collected.snoc {d : Dec} {q : List Byte} (h : d.Collected q) (b : Byte) (hq : q.length + 1 ≤ 255) :
    ({ d with rxbuf := writeCell d.rxbuf q.length b, filledCount := BitVec.ofNat 8 (q.length + 1) } : Dec).Collected (q ++ [b]) :=
  ⟨h.phase, by rw [toNat_ofNat_length hq, List.length_append, List.length_singleton], h.cells.writeCell_end b hq⟩

/-- R130: the last byte goes to its cell and completes the frame. -/
theorem Dec.Collected.step_last (r : Bool) (b : Byte) {d : Dec} {q : List Byte} (h : d.Collected q)
    (hlast : q.length + 1 = d.pendingLength.toNat) :
    decStepWith r b d =
      ({ d with rxbuf := writeCell d.rxbuf q.length b, filledCount := d.pendingLength, phase := .sync, syncIndex := 0 },
        some ⟨d.pendingCommand, q ++ [b]⟩) := by
  have hfilled : d.filledCount + 1 = d.pendingLength := by
    rw [← ofNat_toNat_add_one, h.count, hlast, BitVec.ofNat_toNat, BitVec.setWidth_eq]
  have hcopy : readCells (writeCell d.rxbuf q.length b) d.pendingLength.toNat = q ++ [b] := by
    have hlen := d.pendingLength.isLt
    rw [← hlast, ← (h.cells.writeCell_end b (by omega)).readCells_eq, List.length_append, List.length_singleton]
  rw [decStepWith_readPayload r b h.phase]
  simp only [decReadPayload, h.count, if_pos hlast, hfilled, hcopy]

/-- Settles O30: the byte goes behind those collected. -/
theorem readPayloadStoresTheByte : Obligations.ReadPayloadStoresTheByte := by
  intro cfg b rest s ho hp hinv hne
  have hfill := hinv.filling hp
  have hlen := s.dec.pendingLength.isLt
  have hstep := (hinv.collected hp).step_more cfg.resyncRetest b (by rw [readCells_length]; omega)
  rw [readCells_length] at hstep
  exact ⟨_, step_decStep_of_none ho hstep, readCell_writeCell_self _ b (by omega),
    fun j hj => readCell_writeCell_other _ b hj, rfl⟩

/-- Settles O31: the payload of the frame is the bytes collected and this one. -/
theorem lastPayloadByteEmitsTheFrame : Obligations.LastPayloadByteEmitsTheFrame := by
  intro cfg b rest s ho hp hinv heq
  have hfill := hinv.filling hp
  have hlen := s.dec.pendingLength.isLt
  have hq := hinv.collected hp
  have hlast : s.dec.filledCount.toNat + 1 = s.dec.pendingLength.toNat := by omega
  have hstep := hq.step_last cfg.resyncRetest b (by rwa [readCells_length])
  have hcells := hq.cells.writeCell_end b (by rw [readCells_length]; omega)
  rw [readCells_length] at hstep hcells
  exact ⟨_, readCells s.dec.rxbuf s.dec.filledCount.toNat ++ [b], step_decStep_of_some ho hstep, by simp [hlast],
    List.getLast?_concat, hcells, fun j hj => readCell_writeCell_other _ b hj, rfl⟩

end Sys2Proof.Machine
end

section
/-! SUPPORT. `DEC` over a stream (R133 to R136): an encoded frame decodes to itself, the cutting of the input does not matter, and what
noise in front of a frame does to it in each variant. -/

namespace Sys2Proof.Machine

/-! ### A run, one byte at a time -/

theorem decRun_cons_of_none {r : Bool} {b : Byte} {d d' : Dec} (h : decStepWith r b d = (d', none)) (bs : List Byte) :
    decRun r d (b :: bs) = decRun r d' bs := by
  rw [decRun_cons, h]
  rfl

theorem decRun_singleton (r : Bool) (b : Byte) (d : Dec) :
    decRun r d [b] = ((decStepWith r b d).1, (decStepWith r b d).2.toList) := by
  simp [decRun_cons]

/-! ### One encoded frame -/

/-- The bytes still missing from the payload complete the frame, and nothing before the last of them does. -/
theorem Dec.Collected.decRun_rest (r : Bool) {todo : List Byte} (hne : todo ≠ []) {d : Dec} {q : List Byte} (h : d.Collected q)
    (hlen : q.length + todo.length = d.pendingLength.toNat) :
    ∃ d', decRun r d todo = (d', [⟨d.pendingCommand, q ++ todo⟩]) ∧ d'.phase = .sync ∧ d'.syncIndex = 0 := by
  induction todo generalizing d q with
  | nil => exact absurd rfl hne
  | cons b bs ih =>
    rw [List.length_cons] at hlen
    cases bs with
    | nil =>
      rw [decRun_singleton, h.step_last r b hlen]
      exact ⟨_, rfl, rfl, rfl⟩
    | cons b' bs =>
      have hbyte := d.pendingLength.isLt
      rw [List.length_cons] at hlen
      rw [decRun_cons_of_none (h.step_more r b (by omega)), List.append_cons]
      refine ih (List.cons_ne_nil b' bs) (h.snoc b (by omega)) ?_
      simp only [List.length_append, List.length_cons, List.length_nil]
      omega

/-- The length byte and the payload complete the frame (R128 to R130). -/
theorem decRun_lengthAndPayload (r : Bool) {d : Dec} {p : List Byte} (hphase : d.phase = .readLength) (hp : p.length ≤ 255) :
    ∃ d', decRun r d (BitVec.ofNat 8 p.length :: p) = (d', [⟨d.pendingCommand, p⟩]) ∧ d'.phase = .sync ∧ d'.syncIndex = 0 := by
  by_cases hne : p = []
  · subst hne
    have hrun := decRun_singleton r 0 d
    rw [decStepWith_readLength_zero r hphase] at hrun
    exact ⟨_, hrun, rfl, rfl⟩
  · have hlen := toNat_ofNat_length hp
    have hb : BitVec.ofNat 8 p.length ≠ 0 := by
      intro h0
      rw [h0] at hlen
      exact hne (List.length_eq_zero_iff.mp hlen.symm)
    rw [decRun_cons_of_none (decStepWith_readLength_of_ne r hphase hb)]
    exact Dec.Collected.decRun_rest r (q := []) hne ⟨rfl, rfl, fun j hj => absurd hj (Nat.not_lt_zero j)⟩ (by simp [hlen])

/-- In `SYNC(0)` the preamble is matched byte by byte (R121). -/
theorem decRun_preamble (r : Bool) {d : Dec} (hphase : d.phase = .sync) (hindex : d.syncIndex = 0) (bs : List Byte) :
    decRun r d (0x71 :: 0xFE :: 0x39 :: 0x1D :: bs) = decRun r { d with phase := .readCommand, syncIndex := 4 } bs := by
  obtain ⟨phase, index, command, length, count, buf⟩ := d
  obtain rfl : phase = .sync := hphase
  obtain rfl : index = 0 := hindex
  rw [decRun_cons_of_none (decStepWith_sync_match r rfl rfl), decRun_cons_of_none (decStepWith_sync_match r rfl rfl),
    decRun_cons_of_none (decStepWith_sync_match r rfl rfl), decRun_cons_of_none (decStepWith_sync_match r rfl rfl)]
  rfl

/-- From `SYNC(0)` an encoded frame gives itself and leaves `SYNC(0)`. -/
theorem decRun_frameBytes (r : Bool) {d : Dec} (hphase : d.phase = .sync) (hindex : d.syncIndex = 0) (c : Byte) {p : List Byte}
    (hp : p.length ≤ 255) :
    ∃ d', decRun r d (frameBytes c p) = (d', [⟨c, p⟩]) ∧ d'.phase = .sync ∧ d'.syncIndex = 0 := by
  rw [frameBytes_eq, decRun_preamble r hphase hindex, decRun_cons_of_none (decStepWith_readCommand r c rfl)]
  exact decRun_lengthAndPayload r rfl hp

/-- From `SYNC(0)` a concatenation of encoded frames gives them in order. -/
theorem decRun_flatMap_frameBytes (r : Bool) {fs : List Frame} (hfs : ∀ f ∈ fs, f.payload.length ≤ 255) {d : Dec}
    (hphase : d.phase = .sync) (hindex : d.syncIndex = 0) :
    (decRun r d (fs.flatMap fun f => frameBytes f.command f.payload)).2 = fs := by
  induction fs generalizing d with
  | nil => rfl
  | cons f fs ih =>
    rw [List.forall_mem_cons] at hfs
    obtain ⟨d', hrun, hphase', hindex'⟩ := decRun_frameBytes r hphase hindex f.command hfs.1
    rw [List.flatMap_cons, decRun_append, hrun, ih hfs.2 hphase' hindex']
    rfl

/-- Settles O33: the frame read from its own bytes ends where they end, so the next one meets `SYNC(0)` again. -/
theorem encodedFramesRoundTrip : Obligations.EncodedFramesRoundTrip := by
  refine fun r => ⟨fun d c p e hphase hindex he => ?_, fun fs hfs => decRun_flatMap_frameBytes r hfs rfl rfl⟩
  obtain ⟨hp, rfl⟩ := encodeRequest_eq_ok_iff.mp he
  exact decRun_frameBytes r hphase hindex c hp

/-! ### Chunks -/

/-- The frames and the state carried over from chunk to chunk are those of the whole input. -/
theorem foldl_decRun (r : Bool) (chunks : List (List Byte)) (d : Dec) (fs : List Frame) :
    chunks.foldl (fun q c => ((decRun r q.1 c).1, q.2 ++ (decRun r q.1 c).2)) (d, fs) =
      ((decRun r d chunks.flatten).1, fs ++ (decRun r d chunks.flatten).2) := by
  induction chunks generalizing d fs with
  | nil => simp
  | cons c cs ih => rw [List.foldl_cons, ih, List.flatten_cons, decRun_append, List.append_assoc]

/-- `t` is `s` with these bytes fed to `DEC`: the frames of the run are delivered, and `ENC` is as before. -/
structure FedWith (cfg : Config.Parameters) (bs : List Byte) (s t : State) : Prop where
  dec : t.dec = (decRun cfg.resyncRetest s.dec bs).1
  frames : t.frames = s.frames ++ (decRun cfg.resyncRetest s.dec bs).2
  rx : t.rx = s.rx ++ bs
  enc : t.enc = s.enc

theorem FedWith.refl (cfg : Config.Parameters) (s : State) : FedWith cfg [] s s := ⟨rfl, by simp, by simp, rfl⟩

theorem FedWith.trans {cfg : Config.Parameters} {bs cs : List Byte} {s t u : State} (h : FedWith cfg bs s t)
    (h' : FedWith cfg cs t u) : FedWith cfg (bs ++ cs) s u where
  dec := by rw [h'.dec, h.dec, decRun_append]
  frames := by rw [h'.frames, h.frames, h.dec, decRun_append, List.append_assoc]
  rx := by rw [h'.rx, h.rx, List.append_assoc]
  enc := h'.enc.trans h.enc

/-- A step that takes a chunk feeds its bytes. -/
theorem step_rxChunk (cfg : Config.Parameters) {bs : List Byte} {rest : List Offer} {s : State}
    (ho : s.offers = .rxChunk bs :: rest) : ∃ t, stepWith cfg s = .next t ∧ t.offers = rest ∧ FedWith cfg bs s t :=
  ⟨_, step_head cfg ho (offerWaits_rxChunk _ bs), decFeed_offers cfg bs _, decFeed_dec cfg bs _, decFeed_frames cfg bs _,
    decFeed_rx cfg bs _, decFeed_enc cfg bs _⟩

/-- A run over chunks feeds all their bytes. -/
theorem run_rxChunks (cfg : Config.Parameters) {chunks : List (List Byte)} {s : State} (ho : s.offers = chunks.map .rxChunk) :
    ∃ t, (machineWith cfg).run chunks.length s = .next t ∧ FedWith cfg chunks.flatten s t := by
  induction chunks generalizing s with
  | nil => exact ⟨s, run_zero cfg s, .refl cfg s⟩
  | cons c cs ih =>
    obtain ⟨t, hstep, hoffers, hfed⟩ := step_rxChunk cfg ho
    obtain ⟨u, hrun, hfed'⟩ := ih hoffers
    exact ⟨u, (run_succ_of_next cfg cs.length hstep).trans hrun, hfed.trans hfed'⟩

/-- Settles O34: a run over chunks and one step over their concatenation feed the same bytes. -/
theorem chunkBoundariesDoNotMatter : Obligations.ChunkBoundariesDoNotMatter := by
  refine ⟨fun r d chunks => foldl_decRun r chunks d [], fun cfg s chunks => ?_⟩
  obtain ⟨t, hrun, ht⟩ := run_rxChunks cfg (s := { s with offers := chunks.map .rxChunk }) rfl
  obtain ⟨u, hstep, -, hu⟩ := step_rxChunk cfg (s := { s with offers := [.rxChunk chunks.flatten] }) rfl
  exact ⟨t, u, hrun, hstep, ht.dec.trans hu.dec.symm, ht.frames.trans hu.frames.symm, ht.rx.trans hu.rx.symm,
    ht.enc.trans hu.enc.symm⟩

/-! ### Noise -/

/-- `DEC` is in `SYNC(k)` with `k ≤ 3`, and the last `k` bytes of its input are the first `k` of the preamble (R22). -/
structure Dec.Hunting (d : Dec) (input : List Byte) : Prop where
  phase : d.phase = .sync
  index : d.syncIndex.toNat ≤ 3
  matched : Config.preamble.take d.syncIndex.toNat <:+ input

/-- The bytes matched and the one expected next are one more byte of the preamble. -/
theorem take_preambleByte_suffix {k : Nat} {b : Byte} {input : List Byte} (hb : preambleByte k = some b)
    (h : Config.preamble.take k <:+ input) : Config.preamble.take (k + 1) <:+ input ++ [b] := by
  rw [List.take_add_one, show Config.preamble[k]? = some b from hb]
  exact List.suffix_append_self_iff.mpr h

/-- A byte that does not complete the preamble keeps `DEC` hunting, in both variants. -/
theorem Dec.Hunting.step (r : Bool) {d : Dec} {input : List Byte} {b : Byte} (h : d.Hunting input)
    (hnone : ¬ Config.preamble <:+: input ++ [b]) :
    ∃ d', decStepWith r b d = (d', none) ∧ d'.Hunting (input ++ [b]) := by
  have hk := h.index
  by_cases hb : preambleByte d.syncIndex.toNat = some b
  · have hsuffix := take_preambleByte_suffix hb h.matched
    have h3 : d.syncIndex.toNat ≠ 3 := by
      intro h3
      rw [h3] at hsuffix
      exact hnone hsuffix.isInfix
    have hindex : (BitVec.ofNat 3 (d.syncIndex.toNat + 1)).toNat = d.syncIndex.toNat + 1 := by
      rw [BitVec.toNat_ofNat]
      omega
    refine ⟨_, decStepWith_sync_match r h.phase hb, if_neg (by omega), ?_, ?_⟩
    · rw [hindex]
      omega
    · rwa [hindex]
  · refine ⟨_, decStepWith_sync_mismatch r h.phase hb, h.phase, (resyncIndex_toNat_le r b).trans (by omega), ?_⟩
    simp only [resyncIndex]
    split
    · next hfirst => exact take_preambleByte_suffix hfirst.2 List.nil_suffix
    · exact List.nil_suffix

/-- Over noise without the preamble `DEC` emits nothing and is still hunting. -/
theorem decRun_noise (r : Bool) {noise : List Byte} (hnone : ¬ Config.preamble <:+: noise) :
    ∃ d, decRun r Dec.reset noise = (d, []) ∧ d.Hunting noise := by
  induction noise using List.reverseRecOn with
  | nil => exact ⟨Dec.reset, rfl, rfl, Nat.zero_le 3, List.nil_suffix⟩
  | append_singleton noise b ih =>
    obtain ⟨d, hrun, hd⟩ := ih fun h => hnone (h.trans (List.infix_append_left ..))
    obtain ⟨d', hstep, hd'⟩ := hd.step r hnone
    exact ⟨d', by rw [decRun_snoc, hrun, hstep]; rfl, hd'⟩

/-- After a byte that is none of the preamble's first three, no byte is matched. -/
theorem Dec.Hunting.index_eq_zero {d : Dec} {input : List Byte} (h : d.Hunting input)
    (hend : ∀ b, input.getLast? = some b → b ≠ 0x71 ∧ b ≠ 0xFE ∧ b ≠ 0x39) : d.syncIndex = 0 := by
  by_contra hne
  have hk := h.index
  have hpos : d.syncIndex.toNat ≠ 0 := fun h0 => hne (BitVec.eq_of_toNat_eq h0)
  obtain ⟨before, hinput⟩ := h.matched
  have hlast {b : Byte} (hb : (Config.preamble.take d.syncIndex.toNat).getLast? = some b) : b ≠ 0x71 ∧ b ≠ 0xFE ∧ b ≠ 0x39 :=
    hend b (by rw [← hinput, List.getLast?_append, hb]; rfl)
  obtain h1 | h2 | h3 : d.syncIndex.toNat = 1 ∨ d.syncIndex.toNat = 2 ∨ d.syncIndex.toNat = 3 := by omega
  · exact (hlast (b := 0x71) (by rw [h1]; rfl)).1 rfl
  · exact (hlast (b := 0xFE) (by rw [h2]; rfl)).2.1 rfl
  · exact (hlast (b := 0x39) (by rw [h3]; rfl)).2.2 rfl

/-- With bytes matched that the frame does not continue, the default variant takes the whole preamble of the frame as noise (R122, R136). -/
theorem decRun_false_preamble_lost {d : Dec} (hphase : d.phase = .sync) (hindex : d.syncIndex ≠ 0) (bs : List Byte) :
    decRun false d (0x71 :: 0xFE :: 0x39 :: 0x1D :: bs) = decRun false { d with syncIndex := 0 } bs := by
  have hfirst : decStepWith false 0x71 d = ({ d with syncIndex := 0 }, none) :=
    decStepWith_sync_mismatch false hphase (preambleByte_ne_first hindex)
  have hlater {b : Byte} (hb : preambleByte 0 ≠ some b) :
      decStepWith false b { d with syncIndex := 0 } = ({ d with syncIndex := 0 }, none) :=
    decStepWith_sync_mismatch false hphase hb
  rw [decRun_cons_of_none hfirst, decRun_cons_of_none (hlater (by decide)), decRun_cons_of_none (hlater (by decide)),
    decRun_cons_of_none (hlater (by decide))]

/-- The default variant with bytes matched loses the frame: the bytes of it behind the preamble are too few for its payload. -/
theorem not_mem_decRun_false_frameBytes {d : Dec} (hphase : d.phase = .sync) (hindex : d.syncIndex ≠ 0) (c : Byte) (p : List Byte) :
    ⟨c, p⟩ ∉ (decRun false d (frameBytes c p)).2 := by
  rw [frameBytes_eq, decRun_false_preamble_lost hphase hindex]
  intro hmem
  obtain ⟨hfits, -⟩ := emittedPayloadFitsTheInput false { d with syncIndex := 0 } _ _ hphase rfl hmem
  simp only [List.length_cons] at hfits
  omega

/-- The re-testing variant takes the preamble's first byte as a start wherever it stands in `SYNC` (R124). -/
theorem decStepWith_true_first {d : Dec} (hphase : d.phase = .sync) :
    decStepWith true 0x71 d = decStepWith true 0x71 { d with syncIndex := 0 } := by
  rw [decStepWith_sync_match true (d := { d with syncIndex := 0 }) hphase rfl]
  by_cases hindex : d.syncIndex = 0
  · rw [decStepWith_sync_match true hphase (by rw [hindex]; rfl), hindex]
  · rw [decStepWith_sync_mismatch true hphase (preambleByte_ne_first hindex), resyncIndex_true]
    simp [hphase]

/-- The re-testing variant decodes a frame from anywhere in `SYNC` as from `SYNC(0)`. -/
theorem decRun_true_frameBytes {d : Dec} (hphase : d.phase = .sync) (c : Byte) {p : List Byte} (hp : p.length ≤ 255) :
    (decRun true d (frameBytes c p)).2 = [⟨c, p⟩] := by
  obtain ⟨d', hrun, -⟩ := decRun_frameBytes true (d := { d with syncIndex := 0 }) hphase rfl c hp
  rw [frameBytes_eq, decRun_cons] at hrun ⊢
  rw [decStepWith_true_first hphase, hrun]

/-- Settles O35: noise leaves `DEC` hunting, and whether the frame's first byte is taken as a start then decides. -/
theorem frameAfterNoise : Obligations.FrameAfterNoise := by
  intro noise p c hnone hp
  have hstream {r : Bool} {d : Dec} (hrun : decRun r Dec.reset noise = (d, [])) :
      decodeStream r (noise ++ frameBytes c p) = (decRun r d (frameBytes c p)).2 := by
    rw [decodeStream, decRun_append, hrun, List.nil_append]
  obtain ⟨d, hrun, hd⟩ := decRun_noise false hnone
  obtain ⟨d₁, hrun₁, hd₁⟩ := decRun_noise true hnone
  have hlost (hindex : d.syncIndex ≠ 0) := not_mem_decRun_false_frameBytes hd.phase hindex c p
  refine ⟨fun r => ?_, ?_, ?_, ?_, ?_⟩
  · obtain ⟨d', hrun', hd'⟩ := decRun_noise r hnone
    rw [hrun']
    exact ⟨rfl, hd'.phase⟩
  · rw [hstream hrun, hrun]
    refine ⟨fun hdecoded => ?_, fun hindex => ?_⟩
    · by_contra hindex
      exact hlost hindex (hdecoded ▸ List.mem_singleton_self _)
    · obtain ⟨d', hframe, -⟩ := decRun_frameBytes false hd.phase hindex c hp
      rw [hframe]
  · rw [hstream hrun, hrun]
    exact hlost
  · rw [hrun]
    exact hd.index_eq_zero
  · rw [hstream hrun₁]
    exact decRun_true_frameBytes hd₁.phase c hp

end Sys2Proof.Machine
end

section
/-! SUPPORT. The command frames and the Device Facade (R150 to R171): each instruction is the `SEND` of its frame, so in `IDLE` it is
accepted, and a facade call is the one instruction it expands to or is refused before any byte is sent. -/

namespace Sys2Proof

/-- Bytes that are the encoding of a well-formed instruction decode to it (R80, R86). -/
theorem decode_of_encode_eq {bs : List Byte} {i : Instr} (hi : i.WellFormed) (h : encode i = bs) : decode bs = .ok i :=
  h ▸ encodedInstructionDecodesToItself i hi

/-- Settles O4: six of the words are what `encode` makes of their instruction, and the other three do not split into a frame. -/
theorem specWordsDecode : Obligations.SpecWordsDecode :=
  ⟨decode_of_encode_eq rfl rfl, decode_of_encode_eq rfl rfl, decode_of_encode_eq rfl rfl, decode_of_encode_eq rfl rfl,
    decode_of_encode_eq rfl rfl, decode_of_encode_eq rfl rfl, rfl, rfl, rfl⟩

end Sys2Proof

namespace Sys2Proof.Machine

/-! ### The command frames -/

/-- R103: in `IDLE` an instruction whose payload fits the length byte is accepted, whether or not its header has a row of its own. -/
theorem exec_accepted (i : Instr) {s : State} (hp : i.payload.length ≤ 255) (hidle : s.enc.phase = .idle) :
    ∃ t, exec i s = .next t ∧ Accepted i.command i.payload s t := by
  rw [exec_eq_send]
  exact send_accepted i.command hp hidle

/-- Every well-formed instruction is accepted in `IDLE`. -/
theorem exec_accepted_of_wellFormed {i : Instr} {s : State} (hi : i.WellFormed) (hidle : s.enc.phase = .idle) :
    ∃ t, exec i s = .next t ∧ Accepted i.command i.payload s t :=
  exec_accepted i hi.payload_length hidle

/-- Settles O7: the payload is `le32(rx)` and then `le32(tx)`, whose bytes the statement spells out. -/
theorem setFrequencyIsAccepted : Obligations.SetFrequencyIsAccepted := fun rx tx _ hidle =>
  exec_accepted_of_wellFormed (i := .setFrequency rx tx) rfl hidle

/-- Settles O8: the payload of each is its operand alone. -/
theorem oneByteCommandsAreAccepted : Obligations.OneByteCommandsAreAccepted := fun b _ hidle =>
  ⟨exec_accepted_of_wellFormed (i := .setMode b) rfl hidle,
    exec_accepted_of_wellFormed (i := .greenLedControl b) rfl hidle,
    exec_accepted_of_wellFormed (i := .setTxPower b) rfl hidle⟩

/-- Settles O9: the payload of each is empty, so every `TXBUF` cell stands beyond it. -/
theorem emptyCommandsAreAccepted : Obligations.EmptyCommandsAreAccepted := fun _ hidle =>
  ⟨exec_accepted_of_wellFormed (i := .flushTxBuffer) rfl hidle,
    exec_accepted_of_wellFormed (i := .watchdogRequest) rfl hidle,
    exec_accepted_of_wellFormed (i := .getReceiveData) rfl hidle,
    exec_accepted_of_wellFormed (i := .getVersion) rfl hidle⟩

/-- Settles O10: the payload's size is all that acceptance asks for, also of a generic frame with the header of a command row. -/
theorem variableCommandsAreAccepted : Obligations.VariableCommandsAreAccepted := fun c p _ hp hidle =>
  ⟨exec_accepted (.writeTxData p) hp hidle, exec_accepted (.debug p) hp hidle, exec_accepted (.setSeed p) hp hidle,
    exec_accepted (.setTxBuffer p) hp hidle, exec_accepted (.frameAny c p) hp hidle⟩

/-! ### The facade -/

theorem expand_setTxPower_ok {level : Int} (h0 : 0 ≤ level) (h9 : level ≤ 9) :
    expand (.setTxPower level) = .ok (.setTxPower (BitVec.ofInt 8 level)) := by
  rw [expand, powerOperand_ok h0 h9]

theorem expand_setTxPower_error {level : Int} (h : level < 0 ∨ 9 < level) :
    expand (.setTxPower level) = .error .invalidArgument := by
  rw [expand, powerOperand_error h]

theorem expand_transmit_ok {data : List Byte} (h1 : 1 ≤ data.length) (h245 : data.length ≤ 245) :
    expand (.transmit (some data)) = .ok (.writeTxData data) := by
  rw [expand, transmitOperand_ok h1 h245]

theorem expand_transmit_error {data : List Byte} (h : data.length = 0 ∨ 245 < data.length) :
    expand (.transmit (some data)) = .error .invalidArgument := by
  rw [expand, transmitOperand_error h]

/-- R164: in `IDLE` a call whose precondition holds has its one frame accepted. -/
theorem runOffer_call_accepted (cfg : Config.Parameters) {op : FacadeOp} {i : Instr} {s : State} (h : expand op = .ok i)
    (hp : i.payload.length ≤ 255) (hidle : s.enc.phase = .idle) :
    ∃ t, runOffer cfg (.call op) s = .next t ∧ Accepted i.command i.payload s t := by
  rw [runOffer, runCall_ok h]
  exact send_accepted i.command hp hidle

/-- R182: a call whose precondition fails is refused in any phase, and only the caller is told. -/
theorem runOffer_call_refused (cfg : Config.Parameters) {op : FacadeOp} {k : ErrorKind} (h : expand op = .error k) (s : State) :
    runOffer cfg (.call op) s = .next { s with answers := s.answers ++ [.refused k] } :=
  runCall_error h s

/-- Settles O55: the five have no precondition, so each expands to a frame, of at most 8 payload bytes. -/
theorem facadeOperationsSendTheirFrame : Obligations.FacadeOperationsSendTheirFrame := by
  intro cfg hz mode s hidle
  have hsent {op : FacadeOp} {i : Instr} (h : expand op = .ok i) (hi : i.WellFormed) :=
    runOffer_call_accepted cfg h hi.payload_length hidle
  exact ⟨hsent (i := .setFrequency hz hz) rfl rfl, hsent (i := .setMode mode) rfl rfl, hsent (i := .watchdogRequest) rfl rfl,
    hsent (i := .getReceiveData) rfl rfl, hsent (i := .flushTxBuffer) rfl rfl⟩

/-- Settles O56: a level in range expands to command 9 with the byte equal to it, any other to nothing. -/
theorem setTxPowerChecksItsRange : Obligations.SetTxPowerChecksItsRange := fun cfg _ s =>
  ⟨fun h0 h9 hidle =>
    runOffer_call_accepted cfg (expand_setTxPower_ok h0 h9) (Instr.WellFormed.payload_length rfl) hidle,
    fun h => runOffer_call_refused cfg (expand_setTxPower_error h) s⟩

/-- Settles O57: a buffer of 1 to 245 bytes expands to command 4 with it, any other, and none at all, to nothing. -/
theorem transmitChecksItsBuffer : Obligations.TransmitChecksItsBuffer := fun cfg buffer s =>
  ⟨fun h1 h245 hidle =>
    runOffer_call_accepted cfg (expand_transmit_ok h1 h245) (i := .writeTxData buffer) (Nat.le_trans h245 (by decide)) hidle,
    fun h => runOffer_call_refused cfg (expand_transmit_error h) s,
    runOffer_call_refused cfg rfl s⟩

end Sys2Proof.Machine
end

section
/-! SUPPORT. A step that takes no offer (R198): the blocks hold, and only what every step begins with changes. -/

namespace Sys2Proof.Machine

/-- From no offers none is taken, whatever `ENC` is doing. -/
@[simp] theorem takeOffer_nil (e : Enc) : takeOffer e [] = none := rfl

/-- R198: a step that takes no offer keeps every offer and does nothing behind its beginning. -/
theorem step_of_takeOffer_none (cfg : Config.Parameters) {s : State} (h : takeOffer s.enc s.offers = none) :
    stepWith cfg s = .next (beginStep s.offers s) := by
  rw [stepWith, h]

/-- Settles O41: with no offers none is taken, so the step is its beginning alone. -/
theorem nothingOfferedHoldsTheBlocks : Obligations.NothingOfferedHoldsTheBlocks := by
  intro cfg s hnone
  have htaken : takeOffer s.enc s.offers = none := by rw [hnone, takeOffer_nil]
  rw [step_of_takeOffer_none cfg htaken, beginStep]

end Sys2Proof.Machine
end

section
/-! SUPPORT. How long the registers behind the ports and the cells of `RXBUF` hold (R189, R211): each is written in one place of a
frame only, and the bytes held (`Dec.bytesHeld`) tell how many bytes must come before it. -/

namespace Sys2Proof.Machine

/-! ### Where a step writes -/

/-- In `SYNC` a step touches the phase and the index alone (R121, R122, R124). -/
theorem decStepWith_sync_frame (r : Bool) (b : Byte) {d : Dec} (hp : d.phase = .sync) :
    ∃ ph k, decStepWith r b d = ({ d with phase := ph, syncIndex := k }, none) := by
  by_cases hb : preambleByte d.syncIndex.toNat = some b
  · exact ⟨_, _, decStepWith_sync_match r hp hb⟩
  · exact ⟨d.phase, _, decStepWith_sync_mismatch r hp hb⟩

/-- `dec.pending_command` is written in `READ_COMMAND` alone (R127). -/
theorem decStepWith_pendingCommand (r : Bool) (b : Byte) {d : Dec} (hne : d.phase ≠ .readCommand) :
    (decStepWith r b d).1.pendingCommand = d.pendingCommand := by
  cases hp : d.phase with
  | sync =>
    obtain ⟨ph, k, h⟩ := decStepWith_sync_frame r b hp
    rw [h]
  | readCommand => exact absurd hp hne
  | readLength =>
    rw [decStepWith_readLength r b hp, decReadLength]
    split <;> rfl
  | readPayload =>
    rw [decStepWith_readPayload r b hp, decReadPayload]
    split <;> rfl

/-- `dec.pending_length` is written in `READ_LENGTH` alone (R128). -/
theorem decStepWith_pendingLength (r : Bool) (b : Byte) {d : Dec} (hne : d.phase ≠ .readLength) :
    (decStepWith r b d).1.pendingLength = d.pendingLength := by
  cases hp : d.phase with
  | sync =>
    obtain ⟨ph, k, h⟩ := decStepWith_sync_frame r b hp
    rw [h]
  | readCommand => rw [decStepWith_readCommand r b hp]
  | readLength => exact absurd hp hne
  | readPayload =>
    rw [decStepWith_readPayload r b hp, decReadPayload]
    split <;> rfl

/-- `RXBUF` is written in `READ_PAYLOAD` alone, at index `dec.filled_count` (R129). -/
theorem readCell_decStepWith (r : Bool) (b : Byte) {d : Dec} {i : Nat} (hne : d.phase = .readPayload → i ≠ d.filledCount.toNat) :
    readCell (decStepWith r b d).1.rxbuf i = readCell d.rxbuf i := by
  cases hp : d.phase with
  | sync =>
    obtain ⟨ph, k, h⟩ := decStepWith_sync_frame r b hp
    rw [h]
  | readCommand => rw [decStepWith_readCommand r b hp]
  | readLength =>
    rw [decStepWith_readLength r b hp, decReadLength]
    split <;> rfl
  | readPayload =>
    have hkept := readCell_writeCell_other d.rxbuf b (hne hp)
    rw [decStepWith_readPayload r b hp, decReadPayload]
    split <;> exact hkept

/-! ### How long a run leaves it alone -/

/-- What every step with fewer than `n` bytes held keeps, a run keeps through the `n`th byte. -/
theorem decRun_keeps {α : Type} (g : Dec → α) {r : Bool} {n : Nat}
    (hstep : ∀ b d, d.bytesHeld < n → g (decStepWith r b d).1 = g d) {d : Dec} {bs : List Byte}
    (hn : d.bytesHeld + bs.length ≤ n) : g (decRun r d bs).1 = g d := by
  induction bs generalizing d with
  | nil => rfl
  | cons b bs ih =>
    rw [List.length_cons] at hn
    have hheld := bytesHeld_decStepWith_le r b d
    calc g (decRun r d (b :: bs)).1
      _ = g (decStepWith r b d).1 := ih (by omega)
      _ = g d := hstep b d (by omega)

/-- The command byte stands behind the 4 of the preamble (R80). -/
theorem decRun_pendingCommand {r : Bool} {d : Dec} {bs : List Byte} (h : d.bytesHeld + bs.length ≤ 4) :
    (decRun r d bs).1.pendingCommand = d.pendingCommand := by
  refine decRun_keeps Dec.pendingCommand (fun b d hlt => decStepWith_pendingCommand r b fun hp => ?_) h
  rw [bytesHeld_readCommand hp] at hlt
  omega

/-- The length byte stands behind 5 others (R80). -/
theorem decRun_pendingLength {r : Bool} {d : Dec} {bs : List Byte} (h : d.bytesHeld + bs.length ≤ 5) :
    (decRun r d bs).1.pendingLength = d.pendingLength := by
  refine decRun_keeps Dec.pendingLength (fun b d hlt => decStepWith_pendingLength r b fun hp => ?_) h
  rw [bytesHeld_readLength hp] at hlt
  omega

/-- The payload byte of index `i` stands behind `6 + i` others (R80). -/
theorem readCell_decRun {r : Bool} {d : Dec} {bs : List Byte} {i : Nat} (h : d.bytesHeld + bs.length ≤ 6 + i) :
    readCell (decRun r d bs).1.rxbuf i = readCell d.rxbuf i := by
  refine decRun_keeps (fun d => readCell d.rxbuf i) (fun b d hlt => readCell_decStepWith r b fun hp hi => ?_) h
  rw [bytesHeld_readPayload hp] at hlt
  omega

/-- No frame is shorter than its 6 header bytes (R80, R141). -/
theorem decRun_emits_nothing {r : Bool} {d : Dec} {bs : List Byte} (h : d.bytesHeld + bs.length ≤ 5) : (decRun r d bs).2 = [] := by
  refine List.eq_nil_iff_forall_not_mem.mpr fun f hf => ?_
  obtain ⟨hfits, -⟩ := decRun_payload_le hf
  omega

/-- Settles O36: in `SYNC(0)` no byte is held, so the bytes before each write are all among the input's. -/
theorem deliveredFrameStaysReadable : Obligations.DeliveredFrameStaysReadable := by
  intro r d bs hphase hindex
  have hheld : d.bytesHeld + bs.length = bs.length := by simp [bytesHeld_sync hphase, hindex]
  exact ⟨fun h => decRun_pendingCommand (hheld.le.trans h),
    fun h => ⟨decRun_pendingLength (hheld.le.trans h), decRun_emits_nothing (hheld.le.trans h)⟩,
    fun _ h => readCell_decRun (hheld.le.trans h)⟩

end Sys2Proof.Machine
end
